-- ==== Sys2Proof/Word.lean ====
section
/-! DEFINITION. The word types of z85_core (00_scope.md R6, R9; 30_encoding.md R84, R88, R90). -/

namespace Sys2Proof

/-- A byte of binary data, or one 8-bit character of the encoder's output (R9). -/
abbrev Byte := BitVec 8

/-- A chunk value: `be32` of the four bytes of a binary chunk (00_scope.md R9, 30_encoding.md R82). -/
abbrev Chunk := BitVec 32

/-- The command word CMD, `{op, size, len}` (30_encoding.md R84). -/
abbrev CmdWord := BitVec 65

/-- The result word RES, `{err, verdict, cause, pos}` (30_encoding.md R88). -/
abbrev ResWord := BitVec 37

/-- An output beat, the 40 bits of `out_data` (30_encoding.md R90). -/
abbrev OutBeat := BitVec 40

/-- An input beat, the number on `in_data`. `IN_W` depends on the open parameter `CHAR_W` (00_scope.md R5),
so the beat is a number and the lanes of R55 cut it to the wires there are (log entry 15). A unit of encoded text, `CHAR_W` bits wide
(00_scope.md R9), is a plain `Nat` for the same reason. -/
abbrev InBeat := Nat

/-- One base-85 digit, 0 to 84 (00_scope.md R9); also an address of the ALPHABET ROM (20_memory.md R51). -/
abbrev Digit := Fin 85

end Sys2Proof
end

