-- ==== Sys2Proof/Syntax.lean ====
section
/-! DEFINITION. The operations and the command (30_encoding.md R84 to R87, R93): one constructor of
`Instr` per row of spec/opcode_table.json. -/

namespace Sys2Proof

/-- The operation named by the `op` field (30_encoding.md R86, R87). -/
inductive Op where
  | enc
  | dec
  | val
  | rsv3
deriving DecidableEq, Repr

/-- A call as the notation of R92 writes it: the operation with `size` (signed) and `len` (unsigned).
VAL and RSV3 ignore `size`, and RSV3 ignores `len`, but the word carries both (R84). -/
inductive Instr where
  | enc (size : Int) (len : Nat)
  | dec (size : Int) (len : Nat)
  | val (size : Int) (len : Nat)
  | rsv3 (size : Int) (len : Nat)
deriving DecidableEq, Repr

/-- The operation of a command. -/
def Instr.op : Instr → Op
  | .enc _ _ => .enc
  | .dec _ _ => .dec
  | .val _ _ => .val
  | .rsv3 _ _ => .rsv3

/-- The `size` operand. -/
def Instr.size : Instr → Int
  | .enc size _ => size
  | .dec size _ => size
  | .val size _ => size
  | .rsv3 size _ => size

/-- The `len` operand. -/
def Instr.len : Instr → Nat
  | .enc _ len => len
  | .dec _ len => len
  | .val _ len => len
  | .rsv3 _ len => len

/-- The command with a given operation and operands. -/
def Instr.ofOp (op : Op) (size : Int) (len : Nat) : Instr :=
  match op with
  | .enc => .enc size len
  | .dec => .dec size len
  | .val => .val size len
  | .rsv3 => .rsv3 size len

/-- `ENC.ALL len`, the source's `encode(bytes)` (30_encoding.md R93). -/
def Instr.encAll (len : Nat) : Instr := .enc len len

/-- `DEC.ALL len`, the source's `decode(bytes)` and `decode(text)` (30_encoding.md R93). -/
def Instr.decAll (len : Nat) : Instr := .dec len len

/-- `VAL len`, the source's `isValid`; the notation writes `size` 0 (30_encoding.md R93). -/
def Instr.valAll (len : Nat) : Instr := .val 0 len

end Sys2Proof
end

