-- ==== Sys2Proof/WellFormed.lean ====
section
/-! DEFINITION. Which commands a command word can hold: "every value of size and len is legal to
present" (30_encoding.md R87), so the only checks are the widths of the two fields (R84, R85). -/

namespace Sys2Proof

/-- `size` is a value of the 32-bit two's-complement field: from -2^31 to 2^31 - 1 (30_encoding.md R85). -/
def sizeFits (size : Int) : Bool := decide (-(2 ^ 31) ≤ size) && decide (size < 2 ^ 31)

/-- `len` is a value of the unsigned 31-bit field: from 0 to 2^31 - 1 (30_encoding.md R85). -/
def lenFits (len : Nat) : Bool := decide (len < 2 ^ 31)

/-- A command that some command word holds. -/
def Instr.wellFormed (i : Instr) : Bool := sizeFits i.size && lenFits i.len

end Sys2Proof
end

