-- ==== Sys2Proof/Decode.lean ====
section
/-! DEFINITION. Decoding and encoding of the command word (30_encoding.md R84 to R87). -/

namespace Sys2Proof

/-- The operation map of R86, from the `op` field. "Decoding looks at `op` and at nothing else." -/
def Op.ofCode (c : BitVec 2) : Op :=
  if c = 0b00#2 then .enc else if c = 0b01#2 then .dec else if c = 0b10#2 then .val else .rsv3

/-- The `op` field of each operation (R86). -/
def Op.code : Op → BitVec 2
  | .enc => 0b00#2
  | .dec => 0b01#2
  | .val => 0b10#2
  | .rsv3 => 0b11#2

/-- `op`, bits 64:63 of the command word, port `cmd_op` (R84). -/
def opField (w : CmdWord) : BitVec 2 := w.extractLsb' 63 2

/-- `size`, bits 62:31, port `cmd_size` (R84). -/
def sizeField (w : CmdWord) : BitVec 32 := w.extractLsb' 31 32

/-- `len`, bits 30:0, port `cmd_len` (R84). -/
def lenField (w : CmdWord) : BitVec 31 := w.extractLsb' 0 31

/-- The command a word holds. `size` is read as `signed32`, `len` as unsigned (R85). Every word holds one:
R87, "There are no other illegal command words". -/
def decode (w : CmdWord) : Instr :=
  .ofOp (.ofCode (opField w)) (sizeField w).toInt (lenField w).toNat

/-- Why a number is no command word. -/
inductive DecodeRefusal where
  /-- The number needs more wires than the 65 of the command channel (R84: "Every command word has this
  one length"). Raised by `decodeNumber`; safe. -/
  | widerThanCommandWord
deriving DecidableEq, Repr

/-- The decoder on any number. -/
def decodeNumber (w : Nat) : Except DecodeRefusal Instr :=
  if w < 2 ^ 65 then .ok (decode (BitVec.ofNat 65 w)) else .error .widerThanCommandWord

/-- The instruction the decoder reads from the word `w`, numbered as spec/opcode_table.json numbers it: one
word of 65 bits, bit 0 the least significant (R6). `_nbits` is the table's width in whole bytes; every bit
above it is 0, so the number `w` is the whole word. -/
def decodeTableWord (_nbits w : Nat) : Option Instr :=
  match decodeNumber w with
  | .ok i => some i
  | .error _ => none

/-- The command word of a command: the concatenation `{op, size, len}` (R84). -/
def encode (i : Instr) : CmdWord :=
  i.op.code ++ BitVec.ofInt 32 i.size ++ BitVec.ofNat 31 i.len

end Sys2Proof
end

