-- ==== Sys2Proof/Machine/Division.lean ====
section
/-! DEFINITION. The unsigned division primitives (44_division.md R190 to R195). "For a model, rules R190 and
R191 are the definitions" (R191); the multiply-and-shift realisation of R192 and R193 stands beside them. -/

namespace Sys2Proof.Machine

/-- `divBy5(x)`, the floor of `x / 5` (R190). -/
def divBy5 (x : BitVec 32) : BitVec 32 := x / 5#32

/-- `divBy85(x)`, the floor of `x / 85` (R191). -/
def divBy85 (x : BitVec 32) : BitVec 32 := x / 85#32

/-- `M5` (00_scope.md R5, 44_division.md R192). -/
def m5 : BitVec 64 := 0xCCCCCCCD#64

/-- `S5` (R192). -/
def s5 : Nat := 34

/-- `M85` (R193). -/
def m85 : BitVec 64 := 0xC0C0C0C1#64

/-- `S85` (R193). -/
def s85 : Nat := 38

/-- The realisation of `divBy5` by a 32 by 32 to 64-bit multiply and a shift (R192). -/
def divBy5MulShift (x : BitVec 32) : BitVec 32 := ((x.setWidth 64 * m5) >>> s5).setWidth 32

/-- The realisation of `divBy85` (R193). -/
def divBy85MulShift (x : BitVec 32) : BitVec 32 := ((x.setWidth 64 * m85) >>> s85).setWidth 32

/-- `x mod 5 = x - 5 * divBy5(x)` (R195). -/
def rem5 (x : BitVec 32) : BitVec 32 := x - 5#32 * divBy5 x

/-- `x mod 85 = x - 85 * divBy85(x)` (R195). -/
def rem85 (x : BitVec 32) : BitVec 32 := x - 85#32 * divBy85 x

/-- "The result is below the divisor" (R195): a remainder is a digit. -/
theorem rem85_lt (x : BitVec 32) : (rem85 x).toNat < 85 := by
  have hx := x.isLt
  simp only [rem85, divBy85, BitVec.toNat_sub, BitVec.toNat_mul, BitVec.toNat_udiv, BitVec.toNat_ofNat, Nat.reducePow, Nat.reduceMod]
  omega

/-- Four successive divisions leave a value below 85: "`d0` is never 83 or 84" (41_encode.md R144). -/
theorem divBy85_four_lt (x : BitVec 32) : (divBy85 (divBy85 (divBy85 (divBy85 x)))).toNat < 85 := by
  have hx := x.isLt
  simp only [divBy85, BitVec.toNat_udiv, BitVec.toNat_ofNat, Nat.reducePow, Nat.reduceMod]
  omega

end Sys2Proof.Machine
end

