-- ==== Sys2Proof/Config.lean ====
section
/-! DEFINITION. The parameters of the block (00_scope.md R5). The FIXED ones that a rule computes with
(`M5`, `S5`, `M85`, `S85`, `SENTINEL`) stand beside the rule that uses them, under Machine/. -/

namespace Sys2Proof

/-- The OPEN parameters of R5 on which a rule of the step relation depends. Every latency is open too and
is left to the edges of the run (log entry 1). -/
structure Params where
  /-- `CHAR_W`: the width in bits of one unit of encoded text on the decode and validate input. -/
  charW : Nat
  /-- `MAX_SEQ_LEN`: the longest output sequence the platform can hold. -/
  maxSeqLen : Nat
  /-- `PIPE_DEPTH`: how many output chunks may wait inside the block. -/
  pipeDepth : Nat
deriving DecidableEq, Repr

/-- The range R5 gives each open parameter. -/
def Params.wf (p : Params) : Bool :=
  decide (8 ≤ p.charW) && decide (p.maxSeqLen < 2 ^ 31) && decide (1 ≤ p.pipeDepth)

/-- `IN_W = max(32, 5*CHAR_W)` (R5). -/
def Params.inW (p : Params) : Nat := max 32 (5 * p.charW)

/-- The defaults of R5. `PIPE_DEPTH` has "no default": 2 is a DESIGN CHOICE (log entry 3), on which no
rule's result depends. -/
def Params.default : Params := { charW := 8, maxSeqLen := 2 ^ 31 - 1, pipeDepth := 2 }

end Sys2Proof
end

