-- ==== Sys2Proof/Machine/State.lean ====
section
/-! DEFINITION. The state of one `z85_core` and of the channels around it, as plain data (10_state.md),
the reasons to stop, and the state after reset. -/

namespace Sys2Proof.Machine

/-- `PHASE` (10_state.md R21). "The value 3 is never reached and a model should have no such constructor." -/
inductive Phase where
  | idle
  | run
  | result
deriving DecidableEq, Repr

/-- `CAUSE`, by the names of 60_exceptions.md R220. -/
inductive Cause where
  | none
  | sizeGtLen
  | sizeNotMult
  | sizeNeg
  | sizeTooLarge
  | badChar
  | outOfRange
  | badOp
deriving DecidableEq, Repr

/-- Cells of an address space as (address, byte) pairs, addresses strictly rising; an address not listed holds
no unit. Used for OUT, the one space that is written (20_memory.md R50). -/
abbrev Memory := List Host.Cell

/-- What the host and the consumer hold after a call: its result word, and the output that the word vouches
for. "If the result word has `err = 1` they are void" (60_exceptions.md R228). -/
structure Receipt where
  res : ResWord
  out : Memory
deriving DecidableEq, Repr

/-- One rising edge of `clk`: what the outside drives at it (40_call_protocol.md R110, R111; 70_reset_and_hazards.md
R250), and which of its freedoms the block uses (R120, R121). Log entries 1 and 2. -/
structure Edge where
  /-- `rst` is 1 at the edge (R250). -/
  rst : Bool
  /-- With `rst`: the host and the producer are reset as well and withdraw what they were offering (R253, R257). -/
  withdraw : Bool
  /-- The host comes to offer this command word, behind those it already offers. -/
  newCmd : Option CmdWord
  /-- The producer comes to offer this beat, behind those it already offers. -/
  newBeat : Option InBeat
  /-- The consumer drives `out_ready`. -/
  outReady : Bool
  /-- The host drives `res_ready`. -/
  resReady : Bool
  /-- The block holds `in_ready` at 0 although it may raise it (R120). -/
  inHold : Bool
  /-- The block holds `out_valid` at 0 although it may raise it: the chunk is still in the pipeline (R116). -/
  outHold : Bool
  /-- FINISH, although enabled, does not happen at this edge (R117). -/
  finHold : Bool
deriving DecidableEq, Repr

/-- The edge at which everybody is willing and nothing new is offered. -/
def Edge.willing : Edge :=
  { rst := false, withdraw := false, newCmd := none, newBeat := none, outReady := true, resReady := true,
    inHold := false, outHold := false, finHold := false }

/-- The state (10_state.md R20 and the environment it names). -/
structure State where
  /-- The open parameters (00_scope.md R5). No step writes them (log entry 3). -/
  par : Params
  /-- `PHASE` (R21). -/
  phase : Phase
  /-- `OP` (R22). -/
  op : Op
  /-- `SIZE` (R22). -/
  size : BitVec 32
  /-- `LEN` (R22). -/
  len : BitVec 31
  /-- `TOTAL` (R23). -/
  total : BitVec 32
  /-- `IDX_IN` (R24). -/
  idxIn : BitVec 32
  /-- `IDX_OUT` (R24). -/
  idxOut : BitVec 32
  /-- `FAIL` (R25). -/
  fail : Bool
  /-- `CAUSE` (R25). -/
  cause : Cause
  /-- `POS` (R25). -/
  pos : BitVec 32
  /-- `Q`, head first (R27). -/
  q : List OutBeat
  /-- The model's own bit: `out_valid` is up for the head of `Q`, by the promise of 40_call_protocol.md R111
  (log entry 6). -/
  outUp : Bool
  /-- Command words on offer, oldest first; `cmd_valid` is 1 while there is one (log entry 2). -/
  cmds : List CmdWord
  /-- Input beats on offer, oldest first; `in_valid` is 1 while there is one (log entry 2). -/
  ins : List InBeat
  /-- The address space OUT of the call in progress, provisional (20_memory.md R50, R53; log entry 5). -/
  out : Memory
  /-- The finished calls, oldest first (log entry 5). -/
  receipts : List Receipt
  /-- The coming rising edges; after them every edge is `Edge.willing` (log entry 1). -/
  edges : List Edge
deriving DecidableEq, Repr

/-- Reset (10_state.md R37, 70_reset_and_hazards.md R251). `OP`, `SIZE` and `LEN` are "unspecified" there: zero is a
DESIGN CHOICE (log entry 4). `par` holds the defaults (log entry 3). Nothing is offered (log entry 9). -/
def State.reset : State :=
  { par := Params.default, phase := .idle, op := .enc, size := 0, len := 0, total := 0, idxIn := 0, idxOut := 0,
    fail := false, cause := .none, pos := 0, q := [], outUp := false, cmds := [], ins := [], out := [],
    receipts := [], edges := [] }

/-- The reasons to stop with a fault. -/
inductive Fault where
  /-- An input beat would be consumed while `OP` is RSV3. 40_call_protocol.md R115 gives that event no beat rule and
  derives that it cannot occur. Raised by `inAccept`; unreachable from reset; safe (log entry 8). -/
  | noBeatRule
deriving DecidableEq, Repr

/-- The reasons to refuse. -/
inductive Refusal where
  /-- An instruction with no meaning yet. Raised by an arm of `exec`; none does; safe. -/
  | notModelled (mnemonic : String)
deriving DecidableEq, Repr

/-- What a step or a meaning answers. -/
abbrev Answer := Host.Outcome State Fault Refusal

end Sys2Proof.Machine
end

