-- ==== Sys2Proof/Machine/Operands.lean ====
section
/-! DEFINITION. The lanes of the beats, byte order, and the fields of the result word (20_memory.md R55, R56; 30_encoding.md R82, R83, R88, R90). -/

namespace Sys2Proof.Machine

/-- `be32(b0, b1, b2, b3)`, the first byte in bits 31:24 (00_scope.md R7, 20_memory.md R56). -/
def be32 (b0 b1 b2 b3 : Byte) : Chunk := b0 ++ b1 ++ b2 ++ b3

/-- `bytes_be(v)`: `(v[31:24], v[23:16], v[15:8], v[7:0])` (00_scope.md R7). -/
def bytesBe (v : Chunk) : List Byte :=
  [v.extractLsb' 24 8, v.extractLsb' 16 8, v.extractLsb' 8 8, v.extractLsb' 0 8]

/-- The five units of a text chunk, `u0` at the lowest offset (30_encoding.md R83). -/
structure Units5 where
  u0 : Nat
  u1 : Nat
  u2 : Nat
  u3 : Nat
  u4 : Nat
deriving DecidableEq, Repr

/-- The five digits of a chunk, `d0` the most significant (00_scope.md R9). -/
structure Digits5 where
  d0 : Digit
  d1 : Digit
  d2 : Digit
  d3 : Digit
  d4 : Digit
deriving DecidableEq, Repr

/-- Five characters as one 40-bit beat, `c0` in bits 39:32 (20_memory.md R55, format `ENC_OUT` of 30_encoding.md R90). -/
def chars5 (c0 c1 c2 c3 c4 : Byte) : OutBeat := c0 ++ c1 ++ c2 ++ c3 ++ c4

/-- `{0x00, v}`, the beat `DEC_OUT`: four bytes in bits 31:0, bits 39:32 zero (20_memory.md R55, 42_decode.md R168). -/
def decOutBeat (v : Chunk) : OutBeat := 0x00#8 ++ v

/-- `in_data[31:0]` of an ENC beat; the bits above are ignored (20_memory.md R55, 41_encode.md R145). -/
def encInChunk (beat : Nat) : Chunk := BitVec.ofNat 32 beat

/-- Lane `i` of a DEC or VAL beat, `W = CHAR_W` bits wide, lane 0 the most significant (20_memory.md R55). -/
def lane (w : Nat) (beat : Nat) (i : Nat) : Nat := (beat >>> (w * (4 - i))) % 2 ^ w

/-- The five lanes of a DEC or VAL beat (20_memory.md R55). -/
def lanes5 (w : Nat) (beat : Nat) : Units5 :=
  ⟨lane w beat 0, lane w beat 1, lane w beat 2, lane w beat 3, lane w beat 4⟩

/-- The ENC input beat that carries four bytes, first byte in bits 31:24 (20_memory.md R55). -/
def encInBeat (b0 b1 b2 b3 : Byte) : Nat := (be32 b0 b1 b2 b3).toNat

/-- The DEC or VAL input beat that carries five units of `w` bits (20_memory.md R55). -/
def decInBeat (w : Nat) (u : Units5) : Nat :=
  (((u.u0 * 2 ^ w + u.u1) * 2 ^ w + u.u2) * 2 ^ w + u.u3) * 2 ^ w + u.u4

/-- The units of OUT that an output beat carries, lowest offset first; which format a beat has "is decided by
`OP`" (30_encoding.md R90). VAL and RSV3 have no OUT (20_memory.md R50; log entry 8). -/
def outUnits (op : Op) (beat : OutBeat) : List Byte :=
  match op with
  | .enc => [beat.extractLsb' 32 8, beat.extractLsb' 24 8, beat.extractLsb' 16 8, beat.extractLsb' 8 8,
      beat.extractLsb' 0 8]
  | .dec => bytesBe (beat.extractLsb' 0 32)
  | .val => []
  | .rsv3 => []

/-- How many units of OUT one output beat carries (20_memory.md R53). -/
def unitsPerOutBeat : Op → Nat
  | .enc => 5
  | .dec => 4
  | .val => 0
  | .rsv3 => 0

/-- How many units of IN one input beat carries (20_memory.md R53). -/
def unitsPerInBeat : Op → Nat
  | .enc => 4
  | .dec => 5
  | .val => 5
  | .rsv3 => 0

/-- The number of each phase (10_state.md R21). -/
def Phase.code : Phase → BitVec 2
  | .idle => 0
  | .run => 1
  | .result => 2

/-- The number of each cause (60_exceptions.md R220). -/
def Cause.code : Cause → BitVec 3
  | .none => 0
  | .sizeGtLen => 1
  | .sizeNotMult => 2
  | .sizeNeg => 3
  | .sizeTooLarge => 4
  | .badChar => 5
  | .outOfRange => 6
  | .badOp => 7

/-- The result word `{err, verdict, cause, pos}` (30_encoding.md R88). -/
def resultWord (err verdict : Bool) (cause : Cause) (pos : BitVec 32) : ResWord :=
  BitVec.ofBool err ++ BitVec.ofBool verdict ++ cause.code ++ pos

/-- `err`, bit 36 of the result word (R88). -/
def resErr (r : ResWord) : Bool := r.getLsbD 36

/-- `verdict`, bit 35 of the result word (R88). -/
def resVerdict (r : ResWord) : Bool := r.getLsbD 35

/-- `cause`, bits 34:32 of the result word (R88). -/
def resCause (r : ResWord) : BitVec 3 := r.extractLsb' 32 3

/-- `pos`, bits 31:0 of the result word (R88). -/
def resPos (r : ResWord) : BitVec 32 := r.extractLsb' 0 32

end Sys2Proof.Machine
end

