-- ==== Sys2Proof/Machine/Tables.lean ====
section
/-! DEFINITION. The two ROMs, cell by cell (30_encoding.md R80, R81; 20_memory.md R51, R52). No operation writes them (R62). -/

namespace Sys2Proof.Machine

/-- ALPHABET, indexes 0 to 9: `0` to `9` (30_encoding.md R80). -/
def alphabetDigits : List Byte :=
  [0x30, 0x31, 0x32, 0x33, 0x34, 0x35, 0x36, 0x37, 0x38, 0x39]

/-- ALPHABET, indexes 10 to 35: `a` to `z`. -/
def alphabetLower : List Byte :=
  [0x61, 0x62, 0x63, 0x64, 0x65, 0x66, 0x67, 0x68, 0x69, 0x6A, 0x6B, 0x6C, 0x6D,
   0x6E, 0x6F, 0x70, 0x71, 0x72, 0x73, 0x74, 0x75, 0x76, 0x77, 0x78, 0x79, 0x7A]

/-- ALPHABET, indexes 36 to 61: `A` to `Z`. -/
def alphabetUpper : List Byte :=
  [0x41, 0x42, 0x43, 0x44, 0x45, 0x46, 0x47, 0x48, 0x49, 0x4A, 0x4B, 0x4C, 0x4D,
   0x4E, 0x4F, 0x50, 0x51, 0x52, 0x53, 0x54, 0x55, 0x56, 0x57, 0x58, 0x59, 0x5A]

/-- ALPHABET, indexes 62 to 84, the 23 codes R80 lists one by one. -/
def alphabetMarks : List Byte :=
  [0x2E, 0x2D, 0x3A, 0x2B, 0x3D, 0x5E, 0x21, 0x2F, 0x2A, 0x3F, 0x26, 0x3C,
   0x3E, 0x28, 0x29, 0x5B, 0x5D, 0x7B, 0x7D, 0x40, 0x25, 0x24, 0x23]

/-- The ALPHABET ROM: 85 cells in address order. -/
def alphabetCells : List Byte := alphabetDigits ++ alphabetLower ++ alphabetUpper ++ alphabetMarks

/-- `ALPHA[d]`: one cell of the ALPHABET ROM. The address type is the digit, "make the address type `Fin 85`"
(20_memory.md R51). -/
def alpha (d : Digit) : Byte := alphabetCells.get (d.cast (by decide))

/-- A read of the ALPHABET ROM at any 7-bit address: an address from 85 to 127 has no value (20_memory.md R51). -/
def alphabetRead (a : BitVec 7) : Option Byte := alphabetCells[a.toNat]?

/-- `SENTINEL`, how an INVERSE cell spells "not in the alphabet" (00_scope.md R5, 20_memory.md R52). -/
def sentinel : Byte := 0xFF#8

/-- INVERSE, row 0x20 of the table of R81. -/
def inverseRow2 : List Byte :=
  [sentinel, 68, sentinel, 84, 83, 82, 72, sentinel, 75, 76, 70, 65, sentinel, 63, 62, 69]

/-- INVERSE, row 0x30 of the table of R81. -/
def inverseRow3 : List Byte :=
  [0, 1, 2, 3, 4, 5, 6, 7, 8, 9, 64, sentinel, 73, 66, 74, 71]

/-- INVERSE, row 0x40 of the table of R81. -/
def inverseRow4 : List Byte :=
  [81, 36, 37, 38, 39, 40, 41, 42, 43, 44, 45, 46, 47, 48, 49, 50]

/-- INVERSE, row 0x50 of the table of R81. -/
def inverseRow5 : List Byte :=
  [51, 52, 53, 54, 55, 56, 57, 58, 59, 60, 61, 77, sentinel, 78, 67, sentinel]

/-- INVERSE, row 0x60 of the table of R81. -/
def inverseRow6 : List Byte :=
  [sentinel, 10, 11, 12, 13, 14, 15, 16, 17, 18, 19, 20, 21, 22, 23, 24]

/-- INVERSE, row 0x70 of the table of R81. -/
def inverseRow7 : List Byte :=
  [25, 26, 27, 28, 29, 30, 31, 32, 33, 34, 35, 79, sentinel, 80, sentinel, sentinel]

/-- The INVERSE ROM: 256 cells in address order. Rows 0x00 and 0x10, and 0x80 to 0xF0, are all the sentinel. -/
def inverseCells : List Byte :=
  List.replicate 32 sentinel ++ inverseRow2 ++ inverseRow3 ++ inverseRow4 ++ inverseRow5 ++ inverseRow6 ++ inverseRow7 ++
    List.replicate 128 sentinel

/-- "85 cells hold an index and 171 hold the sentinel" (30_encoding.md R81): 256 in all. -/
theorem inverseCells_length : inverseCells.length = 256 := by
  simp only [inverseCells, List.length_append, List.length_replicate]
  rfl

/-- `INV[a]`: one cell of the INVERSE ROM (20_memory.md R52). -/
def inv (a : Byte) : Byte := inverseCells.get (a.toFin.cast inverseCells_length.symm)

/-- A cell as the optional digit it spells (30_encoding.md R81). A cell is the sentinel or a digit; one that
is neither does not exist, and would spell no digit (log entry 17). -/
def digitOfCell (e : Byte) : Option Digit :=
  if e = sentinel then none else if h : e.toNat < 85 then some ⟨e.toNat, h⟩ else none

end Sys2Proof.Machine
end

