-- ==== Sys2Proof/Machine/Datapath.lean ====
section
/-! DEFINITION. The arithmetic of one chunk: the encoder's digits (41_encode.md R143), the decoder's lookup and
accumulation (42_decode.md R161, R163). -/

namespace Sys2Proof.Machine

/-- One digit of the encoder: the remainder by 85 (41_encode.md R143, 44_division.md R195). -/
def digit85 (x : BitVec 32) : Digit := ⟨(rem85 x).toNat, rem85_lt x⟩

/-- The most significant digit: the fourth quotient itself, `d0 <- q4` (41_encode.md R143). -/
def topDigit (v : Chunk) : Digit := ⟨(divBy85 (divBy85 (divBy85 (divBy85 v)))).toNat, divBy85_four_lt v⟩

/-- The five base-85 digits of a chunk value, by four successive unsigned divisions by 85 (41_encode.md R143). -/
def encDigits (v : Chunk) : Digits5 :=
  let q1 := divBy85 v
  let q2 := divBy85 q1
  let q3 := divBy85 q2
  { d0 := topDigit v, d1 := digit85 q3, d2 := digit85 q2, d3 := digit85 q1, d4 := digit85 v }

/-- The five characters of five digits (41_encode.md R143). -/
def charsOf (d : Digits5) : OutBeat := chars5 (alpha d.d0) (alpha d.d1) (alpha d.d2) (alpha d.d3) (alpha d.d4)

/-- `lookup(u)` (42_decode.md R161): the pre-check on the whole unit, then the INVERSE ROM. -/
def lookup (u : Nat) : Option Digit :=
  if 128 ≤ u then none else digitOfCell (inv (BitVec.ofNat 8 u))

/-- The five lookups of a chunk: the digits, or `none` when some lookup is `none` (42_decode.md R162, R165). -/
def digitsOf (u : Units5) : Option Digits5 :=
  match lookup u.u0, lookup u.u1, lookup u.u2, lookup u.u3, lookup u.u4 with
  | some d0, some d1, some d2, some d3, some d4 => some ⟨d0, d1, d2, d3, d4⟩
  | _, _, _, _, _ => none

/-- One step of Horner's method in the accumulator of `ACC_W = 33` bits (42_decode.md R163). -/
def hornerStep (acc : BitVec 33) (d : Digit) : BitVec 33 := acc * 85#33 + BitVec.ofNat 33 d.val

/-- The accumulated value of five digits (42_decode.md R163). -/
def horner (d : Digits5) : BitVec 33 :=
  hornerStep (hornerStep (hornerStep (hornerStep (BitVec.ofNat 33 d.d0.val) d.d1) d.d2) d.d3) d.d4

/-- The value five digits stand for (30_encoding.md R83), as an exact number. -/
def digitsValue (d : Digits5) : Nat :=
  d.d0.val * 85 ^ 4 + d.d1.val * 85 ^ 3 + d.d2.val * 85 ^ 2 + d.d3.val * 85 + d.d4.val

end Sys2Proof.Machine
end

