-- ==== Sys2Proof/Machine/Flags.lean ====
section
/-! DEFINITION. The flags: the combinational ones of a chunk (10_state.md R26; 42_decode.md R162, R164) and those the result
word derives from the registers (30_encoding.md R88). -/

namespace Sys2Proof.Machine

/-- `bad_char`: at least one of the five lookups is `none` (42_decode.md R162). -/
def badChar (u : Units5) : Bool :=
  (lookup u.u0).isNone || (lookup u.u1).isNone || (lookup u.u2).isNone || (lookup u.u3).isNone || (lookup u.u4).isNone

/-- The range test on the accumulator: `acc[32] = 1` (42_decode.md R164). -/
def accTooLarge (acc : BitVec 33) : Bool := acc.getLsbD 32

/-- `out_of_range` of a chunk; "when `bad_char = 1`, `out_of_range` is reported as 0" (42_decode.md R164). -/
def outOfRange (u : Units5) : Bool :=
  match digitsOf u with
  | some d => accTooLarge (horner d)
  | none => false

/-- `res_err`: "Always 0 for VAL. Equals `FAIL` for ENC, DEC and RSV3" (30_encoding.md R88). -/
def State.err (s : State) : Bool := s.fail && decide (s.op ≠ .val)

/-- `res_verdict = NOT FAIL`, for every operation (30_encoding.md R88). -/
def State.verdict (s : State) : Bool := !s.fail

/-- The result word on offer (30_encoding.md R88, 40_call_protocol.md R118). -/
def State.result (s : State) : ResWord := resultWord s.err s.verdict s.cause s.pos

end Sys2Proof.Machine
end

