-- ==== Sys2Proof/Machine/Memory.lean ====
section
/-! DEFINITION. Reading and writing the cells of an address space (00_scope.md R7, 20_memory.md R50), in one canonical form. -/

namespace Sys2Proof.Machine

/-- The canonical form: addresses strictly rising. An address not listed has no value, so no entry equals
what an unlisted address reads as. -/
def Memory.wf (m : Memory) : Bool := decide ((m.map Prod.fst).Pairwise (· < ·))

/-- The unit at one address; `none` where no unit has been written. -/
def Memory.read : Memory → Nat → Option Byte
  | [], _ => none
  | (a, b) :: m, x => if x = a then some b else Memory.read m x

/-- One unit written at one address. -/
def Memory.write : Memory → Nat → Byte → Memory
  | [], x, v => [(x, v)]
  | (a, b) :: m, x, v =>
    if x < a then (x, v) :: (a, b) :: m else if x = a then (a, v) :: m else (a, b) :: Memory.write m x v

/-- `MemWrite(OUT, x, n, v)`: the list `v` of `n` units written from address `x` upward (00_scope.md R7). -/
def Memory.writeAll (m : Memory) (x : Nat) : List Byte → Memory
  | [] => m
  | v :: vs => Memory.writeAll (Memory.write m x v) (x + 1) vs

/-- The memory that holds a sequence of units from address `x` upward. -/
def Memory.ofUnits (x : Nat) : List Byte → Memory
  | [] => []
  | v :: vs => (x, v) :: Memory.ofUnits (x + 1) vs

/-- `MemRead(IN, x, n)` of a caller's buffer: `n` consecutive units from offset `x`, lowest first (00_scope.md R7);
`none` where the buffer ends before them (log entry 11). -/
def bufferRead {α : Type} (buf : List α) (x n : Nat) : Option (List α) :=
  if x + n ≤ buf.length then some ((buf.drop x).take n) else none

end Sys2Proof.Machine
end

