-- ==== Sys2Proof/Machine/Ops.lean ====
section
/-! DEFINITION. The operations the events share (40_call_protocol.md R113 to R118; 60_exceptions.md R226, R230; 70_reset_and_hazards.md R250, R251). -/

namespace Sys2Proof.Machine

/-- What an argument check returns: `(fail, cause, total)` (40_call_protocol.md R114). -/
structure Check where
  fail : Bool
  cause : Cause
  total : BitVec 32
deriving DecidableEq, Repr

/-- A check that fails with a cause: `(1, cause, 0)`. -/
def Check.fails (c : Cause) : Check := { fail := true, cause := c, total := 0 }

/-- A check that passes with a number of chunks: `(0, 0, total)`. -/
def Check.passes (total : BitVec 32) : Check := { fail := false, cause := .none, total := total }

/-- `raise InvalidArgument(cause, pos)` (60_exceptions.md R226): the one exception, taken. "Nothing else is saved";
control goes nowhere. -/
def raiseInvalidArgument (c : Cause) (p : BitVec 32) (s : State) : State :=
  { s with fail := true, cause := c, pos := p }

/-- RES-DELIVER (40_call_protocol.md R118), which is also how a failed call ends: "There is no return instruction"
(60_exceptions.md R230). The host takes the result word, and with it the output it vouches for: void when `err`
is 1 (R228). -/
def deliverResult (s : State) : State :=
  { s with
    phase := .idle
    receipts := s.receipts ++ [{ res := s.result, out := if s.err then [] else s.out }]
    out := [] }

/-- The registers as a command leaves them before its checks: loaded and cleared (40_call_protocol.md R113). The word
leaves the command channel. -/
def loadCommand (op : Op) (size : BitVec 32) (len : BitVec 31) (s : State) : State :=
  { s with
    phase := .run, op := op, size := size, len := len, total := 0, idxIn := 0, idxOut := 0, fail := false,
    cause := .none, pos := 0, q := [], outUp := false, cmds := s.cmds.tail }

/-- The checks folded into the registers: `(FAIL, CAUSE, TOTAL) <- check(...)` (40_call_protocol.md R113); a failed
check is the exception at command acceptance (60_exceptions.md R226), with `POS` 0. -/
def applyCheck (c : Check) (s : State) : State :=
  if c.fail then raiseInvalidArgument c.cause 0 s else { s with total := c.total }

/-- CMD-ACCEPT (40_call_protocol.md R113) of a command whose checks are `check`, read from the two fields as the
registers hold them (30_encoding.md R85). In any other phase than IDLE `cmd_ready` is 0 and the command waits
(R120, R126; log entry 7). -/
def acceptCommand (op : Op) (size : Int) (len : Nat) (check : Int → Nat → Check) (s : State) : State :=
  match s.phase with
  | .idle =>
    let sizeBits := BitVec.ofInt 32 size
    let lenBits := BitVec.ofNat 31 len
    applyCheck (check sizeBits.toInt lenBits.toNat) (loadCommand op sizeBits lenBits s)
  | .run => s
  | .result => s

/-- A beat appended to the tail of `Q` (10_state.md R27). -/
def pushQ (beat : OutBeat) (s : State) : State := { s with q := s.q ++ [beat] }

/-- The transfer of one input beat: it leaves the channel and `IDX_IN <- k + 1` (40_call_protocol.md R115). -/
def takeBeat (s : State) : State := { s with ins := s.ins.tail, idxIn := s.idxIn + 1 }

/-- A chunk result folded into the flags: "`FAIL <- 1 ; CAUSE <- c ; POS <- 5 * k`" (42_decode.md R168, R172). -/
def failChunk (c : Cause) (k : BitVec 32) (s : State) : State := raiseInvalidArgument c (5#32 * k) s

/-- OUT-DELIVER (40_call_protocol.md R116): the head leaves `Q`, `IDX_OUT <- IDX_OUT + 1`; the consumer holds its units
at their offsets of OUT (20_memory.md R53). -/
def deliverOut (s : State) : State :=
  match s.q with
  | [] => s
  | beat :: rest =>
    { s with
      q := rest
      outUp := false
      idxOut := s.idxOut + 1
      out := Memory.writeAll s.out (unitsPerOutBeat s.op * s.idxOut.toNat) (outUnits s.op beat) }

/-- `out_valid` is up and the beat was not taken: it stays up (40_call_protocol.md R111). -/
def holdOut (s : State) : State := { s with outUp := true }

/-- FINISH (40_call_protocol.md R117). -/
def finish (s : State) : State := { s with phase := .result }

/-- A rising edge with `rst = 1` (70_reset_and_hazards.md R250, R251, R253): the block takes its reset state; what it
delivered of a call is void; no transfer happens. `OP`, `SIZE` and `LEN` are "unspecified": they take the values
that `State.reset` names (log entry 4). -/
def resetBlock (s : State) : State :=
  { State.reset with
    par := s.par, cmds := s.cmds, ins := s.ins, receipts := s.receipts, edges := s.edges }

/-- The host and the producer, reset together with the block, withdraw what they were offering (R253). -/
def withdrawOffers (s : State) : State := { s with cmds := [], ins := [] }

/-- The coming edge. -/
def State.edge (s : State) : Edge :=
  match s.edges with
  | [] => .willing
  | e :: _ => e

/-- The state the coming edge samples: what is newly offered at it stands behind what was on offer (R111). -/
def arrive (s : State) : State :=
  { s with
    cmds := s.cmds ++ s.edge.newCmd.toList
    ins := s.ins ++ s.edge.newBeat.toList
    edges := s.edges.tail }

end Sys2Proof.Machine
end

