-- ==== Sys2Proof/Machine/Dec.lean ====
section
/-! DEFINITION. DEC, the `z85_decoder` datapath (42_decode.md R160 to R172). -/

namespace Sys2Proof.Machine

/-- What `dec_chunk` returns (42_decode.md R165). -/
inductive ChunkResult where
  | ok (v : Chunk)
  | fail (c : Cause)
deriving DecidableEq, Repr

/-- `dec_chunk(u0 .. u4)` (42_decode.md R165): the character test before the range test (60_exceptions.md R223). -/
def decChunk (u : Units5) : ChunkResult :=
  match digitsOf u with
  | none => .fail .badChar
  | some d => if accTooLarge (horner d) then .fail .outOfRange else .ok ((horner d).setWidth 32)

/-- `dec_check(size, len)` (42_decode.md R166). -/
def decCheck (size : Int) (len : Nat) : Check :=
  if size < 0 then .fails .sizeNeg
  else if (len : Int) < size then .fails .sizeGtLen
  else if rem5 (BitVec.ofNat 32 size.toNat) ≠ 0 then .fails .sizeNotMult
  else .passes (divBy5 (BitVec.ofNat 32 size.toNat))

/-- `dec_beat(k, in_data)` (42_decode.md R168): nothing while draining (40_call_protocol.md R123). -/
def decBeat (k : BitVec 32) (beat : InBeat) (s : State) : State :=
  if s.fail then s
  else match decChunk (lanes5 s.par.charW beat) with
    | .ok v => pushQ (decOutBeat v) s
    | .fail c => failChunk c k s

/-- DEC: its command is accepted (40_call_protocol.md R113, R114). The beats of the call are the events that follow. -/
def execDec (size : Int) (len : Nat) (s : State) : Answer :=
  .next (acceptCommand .dec size len decCheck s)

end Sys2Proof.Machine
end

