-- ==== Sys2Proof/Machine/Enc.lean ====
section
/-! DEFINITION. ENC, the `z85_encoder` datapath (41_encode.md R140 to R147). -/

namespace Sys2Proof.Machine

/-- `MAX_INPUT_LENGTH = 4 * floor(MAX_SEQ_LEN / 5)` (00_scope.md R5, 41_encode.md R141). -/
def maxInputLength (p : Params) : Nat := 4 * (p.maxSeqLen / 5)

/-- `enc_check(size, len)` (41_encode.md R141), in the order of 60_exceptions.md R222. -/
def encCheck (p : Params) (size : Int) (len : Nat) : Check :=
  if size < 0 then .fails .sizeNeg
  else if (len : Int) < size then .fails .sizeGtLen
  else if size % 4 ≠ 0 then .fails .sizeNotMult
  else if (maxInputLength p : Int) < size then .fails .sizeTooLarge
  else .passes (BitVec.ofNat 32 (size.toNat >>> 2))

/-- `enc_chunk(v)` (41_encode.md R143). -/
def encChunk (v : Chunk) : OutBeat := charsOf (encDigits v)

/-- `enc_beat(k, in_data)` (41_encode.md R145): the output chunk is appended to `Q`; no flag is read or written. -/
def encBeat (beat : InBeat) (s : State) : State := pushQ (encChunk (encInChunk beat)) s

/-- ENC: its command is accepted (40_call_protocol.md R113, R114). The beats of the call are the events that follow. -/
def execEnc (size : Int) (len : Nat) (s : State) : Answer :=
  .next (acceptCommand .enc size len (encCheck s.par) s)

end Sys2Proof.Machine
end

