-- ==== Sys2Proof/Machine/Val.lean ====
section
/-! DEFINITION. VAL, the validity checker (43_isvalid.md R180 to R186): "the decoder datapath with the data output left
unconnected" (R181). -/

namespace Sys2Proof.Machine

/-- `val_check(len)` (43_isvalid.md R182). -/
def valCheck (len : Nat) : Check :=
  if rem5 (BitVec.ofNat 32 len) ≠ 0 then .fails .sizeNotMult else .passes (divBy5 (BitVec.ofNat 32 len))

/-- `val_beat(k, in_data)` (43_isvalid.md R183): `dec_beat` without the append to `Q`. -/
def valBeat (k : BitVec 32) (beat : InBeat) (s : State) : State :=
  if s.fail then s
  else match decChunk (lanes5 s.par.charW beat) with
    | .ok _ => s
    | .fail c => failChunk c k s

/-- VAL: its command is accepted (40_call_protocol.md R113, R114). The `size` field is loaded and ignored (R180). -/
def execVal (size : Int) (len : Nat) (s : State) : Answer :=
  .next (acceptCommand .val size len (fun _ l => valCheck l) s)

end Sys2Proof.Machine
end

