-- ==== Sys2Proof/Machine/Beat.lean ====
section
/-! DEFINITION. IN-ACCEPT (40_call_protocol.md R115). -/

namespace Sys2Proof.Machine

/-- IN-ACCEPT: the beat at the head of the input channel, with `k = IDX_IN`, goes to the beat rule of `OP` (R115). With
no beat on offer there is no transfer. RSV3 has no beat rule (log entry 8). -/
def inAccept (s : State) : Answer :=
  match s.ins with
  | [] => .next s
  | beat :: _ =>
    match s.op with
    | .enc => .next (encBeat beat (takeBeat s))
    | .dec => .next (decBeat s.idxIn beat (takeBeat s))
    | .val => .next (valBeat s.idxIn beat (takeBeat s))
    | .rsv3 => .fault .noBeatRule

end Sys2Proof.Machine
end

