-- ==== Sys2Proof/Machine/Rsv.lean ====
section
/-! DEFINITION. RSV3, the reserved operation (30_encoding.md R87). -/

namespace Sys2Proof.Machine

/-- The check of `op = 0b11`: `(1, 7, 0)` "whatever `size` and `len` hold" (30_encoding.md R87, 40_call_protocol.md R114). -/
def rsvCheck : Check := .fails .badOp

/-- RSV3: "accepted like any other, consumes no input beat, produces no output beat" (30_encoding.md R87). -/
def execRsv3 (size : Int) (len : Nat) (s : State) : Answer :=
  .next (acceptCommand .rsv3 size len (fun _ _ => rsvCheck) s)

end Sys2Proof.Machine
end

