-- ==== Sys2Proof/Machine/Dispatch.lean ====
section
/-! DEFINITION. The meaning of each operation (30_encoding.md R86, R87). -/

namespace Sys2Proof.Machine

/-- A command reaching the block on the command channel. -/
def exec (i : Instr) (s : State) : Host.Outcome State Fault Refusal :=
  match i with
  | .enc size len => Sys2Proof.Machine.execEnc size len s
  | .dec size len => Sys2Proof.Machine.execDec size len s
  | .val size len => Sys2Proof.Machine.execVal size len s
  | .rsv3 size len => Sys2Proof.Machine.execRsv3 size len s

end Sys2Proof.Machine
end

