-- ==== Sys2Proof/Machine/Ports.lean ====
section
/-! DEFINITION. What the block drives on its output ports (40_call_protocol.md R110, R120), as functions of the edge and of the
state that the edge samples. A payload has no value while its `valid` is 0 (R111). -/

namespace Sys2Proof.Machine

/-- `cmd_ready`: "1 exactly when `PHASE = IDLE` and `rst = 0`" (R120). -/
def cmdReady (e : Edge) (s : State) : Bool := decide (s.phase = .idle) && !e.rst

/-- `in_ready` "may be 1 only when `PHASE = RUN` and `IDX_IN < TOTAL` and `|Q| < PIPE_DEPTH`" (R120); the edge says whether
the block holds it at 0 all the same. -/
def inReady (e : Edge) (s : State) : Bool :=
  decide (s.phase = .run) && decide (s.idxIn < s.total) && decide (s.q.length < s.par.pipeDepth) && !e.inHold && !e.rst

/-- `out_valid` "may be 1 only when `Q` is not empty" (R120). Once raised it stays raised (R111); until then the edge says
whether the block holds it at 0. -/
def outValid (e : Edge) (s : State) : Bool := !s.q.isEmpty && (s.outUp || !e.outHold) && !e.rst

/-- `res_valid`: "1 exactly when `PHASE = RESULT` and `rst = 0`" (R120). -/
def resValid (e : Edge) (s : State) : Bool := decide (s.phase = .result) && !e.rst

/-- `out_data`: "the head of `Q`" while `out_valid` is 1 (R116). -/
def outData (e : Edge) (s : State) : Option OutBeat := if outValid e s then s.q.head? else none

/-- The result ports `res_err`, `res_verdict`, `res_cause`, `res_pos` as one word, while `res_valid` is 1 (R118). -/
def resData (e : Edge) (s : State) : Option ResWord := if resValid e s then some s.result else none

/-- `transfer(cmd)` (R111): `cmd_valid` is 1 while a word is on offer. -/
def cmdTransfers (e : Edge) (s : State) : Bool := cmdReady e s && !s.cmds.isEmpty

/-- `transfer(in)` (R111): `in_valid` is 1 while a beat is on offer. -/
def inTransfers (e : Edge) (s : State) : Bool := inReady e s && !s.ins.isEmpty

/-- `transfer(out)` (R111). -/
def outTransfers (e : Edge) (s : State) : Bool := outValid e s && e.outReady

/-- `transfer(res)` (R111). -/
def resTransfers (e : Edge) (s : State) : Bool := resValid e s && e.resReady

/-- The condition of FINISH: `PHASE = RUN`, `IDX_IN = TOTAL`, `Q` empty (R117). -/
def finishEnabled (s : State) : Bool := decide (s.phase = .run) && decide (s.idxIn = s.total) && s.q.isEmpty

end Sys2Proof.Machine
end

