-- ==== Sys2Proof/Machine/Events.lean ====
section
/-! DEFINITION. What happens at one rising edge, phase by phase (40_call_protocol.md R112, R119). -/

namespace Sys2Proof.Machine

/-- An edge with `rst = 1` (70_reset_and_hazards.md R250, R253). -/
def resetEvent (e : Edge) (s : State) : State :=
  if e.withdraw then withdrawOffers (resetBlock s) else resetBlock s

/-- An edge in IDLE: the command word at the head of the channel is decoded and executed (R113); with none on offer
the block "changes nothing until a command arrives" (60_exceptions.md R236). -/
def idleEvent (s : State) : Answer :=
  match s.cmds with
  | [] => .next s
  | w :: _ => exec (decode w) s

/-- The output side of an edge in RUN whose ports showed `s`; `t` is the state after its input side. A beat on offer is
taken, or stays on offer (R111, R116). -/
def outEvent (e : Edge) (s t : State) : State :=
  if outTransfers e s then deliverOut t else if outValid e s then holdOut t else t

/-- An edge in RUN: FINISH alone, or IN-ACCEPT and OUT-DELIVER, either or both, "one after the other" (R119). -/
def runEvent (e : Edge) (s : State) : Answer :=
  if finishEnabled s then .next (if e.finHold then s else finish s)
  else match (if inTransfers e s then inAccept s else .next s) with
    | .next t => .next (outEvent e s t)
    | .fault f => .fault f
    | .refused r => .refused r

/-- An edge in RESULT: the result word waits until the host takes it (R118, 70_reset_and_hazards.md R259). -/
def resultEvent (e : Edge) (s : State) : State := if resTransfers e s then deliverResult s else s

/-- An edge that samples the state `s`. -/
def edgeEvent (e : Edge) (s : State) : Answer :=
  if e.rst then .next (resetEvent e s)
  else match s.phase with
    | .idle => idleEvent s
    | .run => runEvent e s
    | .result => .next (resultEvent e s)

end Sys2Proof.Machine
end

