-- ==== Sys2Proof/Machine/Step.lean ====
section
/-! DEFINITION. One step: one rising edge of `clk` (40_call_protocol.md R110, R112; log entry 1). -/

namespace Sys2Proof.Machine

/-- One rising edge: the coming edge samples what is on offer, and its event happens. -/
def step (s : State) : Host.Outcome State Fault Refusal := edgeEvent s.edge (arrive s)

/-- The state `s` with the command word `w` standing where the next step fetches: the host offers it first on the
command channel, and the block is in IDLE with an empty `Q`, at an edge where nobody holds back. `_nbits` is the
table's width: every bit of `w` above it is 0 (log entry 9). -/
def State.withFetchWord (s : State) (_nbits w : Nat) : State :=
  { s with
    phase := .idle
    q := []
    outUp := false
    cmds := BitVec.ofNat 65 w :: s.cmds
    edges := match s.edges with
      | [] => []
      | es => Edge.willing :: es }

end Sys2Proof.Machine
end

