-- ==== Sys2Proof/Machine/Calls.lean ====
section
/-! DEFINITION. The calls as functions of a caller's buffer (41_encode.md R146, 42_decode.md R169, 43_isvalid.md R184), and the beats
that present the buffer (20_memory.md R53). The machine does not use this file: statements compare it with the machine. -/

namespace Sys2Proof.Machine

/-- `check(op, size, len)`, "one total function of the command word" (40_call_protocol.md R114). -/
def checkOf (p : Params) : Op → Int → Nat → Check
  | .enc, size, len => encCheck p size len
  | .dec, size, len => decCheck size len
  | .val, _, len => valCheck len
  | .rsv3, _, _ => rsvCheck

/-- What a call of `encode` or `decode` gives its caller. -/
inductive CallResult where
  /-- The call returns its output. -/
  | returns (out : List Byte)
  /-- `raise InvalidArgument(cause, pos)` (60_exceptions.md R226). -/
  | raises (c : Cause) (pos : Nat)
  /-- The buffer ends before a unit the call reads: `len` did not tell the truth (70_reset_and_hazards.md R261; log entry 11). -/
  | bufferTooShort
deriving DecidableEq, Repr

/-- The chunks `k` to `k + n - 1` of `encode`: read, encoded, written one after the other (41_encode.md R146). -/
def encodeFrom (buf : List Byte) (k : Nat) : Nat → CallResult
  | 0 => .returns []
  | n + 1 =>
    match bufferRead buf (4 * k) 4 with
    | some [b0, b1, b2, b3] =>
      match encodeFrom buf (k + 1) n with
      | .returns out => .returns (outUnits .enc (encChunk (be32 b0 b1 b2 b3)) ++ out)
      | .raises c p => .raises c p
      | .bufferTooShort => .bufferTooShort
    | _ => .bufferTooShort

/-- `encode(IN, size, len)` (41_encode.md R146). -/
def encodeCall (p : Params) (buf : List Byte) (size : Int) (len : Nat) : CallResult :=
  if (encCheck p size len).fail then .raises (encCheck p size len).cause 0
  else encodeFrom buf 0 (encCheck p size len).total.toNat

/-- The chunks `k` to `k + n - 1` of `decode` (42_decode.md R169). -/
def decodeFrom (buf : List Nat) (k : Nat) : Nat → CallResult
  | 0 => .returns []
  | n + 1 =>
    match bufferRead buf (5 * k) 5 with
    | some [u0, u1, u2, u3, u4] =>
      match decChunk ⟨u0, u1, u2, u3, u4⟩ with
      | .fail c => .raises c (5 * k)
      | .ok v =>
        match decodeFrom buf (k + 1) n with
        | .returns out => .returns (bytesBe v ++ out)
        | .raises c p => .raises c p
        | .bufferTooShort => .bufferTooShort
    | _ => .bufferTooShort

/-- `decode(IN, size, len)` (42_decode.md R169). -/
def decodeCall (buf : List Nat) (size : Int) (len : Nat) : CallResult :=
  if (decCheck size len).fail then .raises (decCheck size len).cause 0
  else decodeFrom buf 0 (decCheck size len).total.toNat

/-- The three components `isValid` returns (43_isvalid.md R184). -/
structure Verdict where
  verdict : Bool
  cause : Cause
  pos : Nat
deriving DecidableEq, Repr

/-- The chunks `k` to `k + n - 1` of `isValid` (43_isvalid.md R184); `none` where the buffer ends too soon (log entry 11). -/
def isValidFrom (buf : List Nat) (k : Nat) : Nat → Option Verdict
  | 0 => some ⟨true, .none, 0⟩
  | n + 1 =>
    match bufferRead buf (5 * k) 5 with
    | some [u0, u1, u2, u3, u4] =>
      match decChunk ⟨u0, u1, u2, u3, u4⟩ with
      | .fail c => some ⟨false, c, 5 * k⟩
      | .ok _ => isValidFrom buf (k + 1) n
    | _ => none

/-- `isValid(IN, len)` (43_isvalid.md R184): "total and never raises". -/
def isValidCall (buf : List Nat) (len : Nat) : Option Verdict :=
  if (valCheck len).fail then some ⟨false, (valCheck len).cause, 0⟩
  else isValidFrom buf 0 (valCheck len).total.toNat

/-- The ENC input beats `k` to `k + n - 1` of a buffer (20_memory.md R53, R55). -/
def encBeats (buf : List Byte) (k : Nat) : Nat → List InBeat
  | 0 => []
  | n + 1 =>
    match bufferRead buf (4 * k) 4 with
    | some [b0, b1, b2, b3] => encInBeat b0 b1 b2 b3 :: encBeats buf (k + 1) n
    | _ => []

/-- The DEC or VAL input beats `k` to `k + n - 1` of a buffer of units of `w` bits (20_memory.md R53, R55). -/
def decBeats (w : Nat) (buf : List Nat) (k : Nat) : Nat → List InBeat
  | 0 => []
  | n + 1 =>
    match bufferRead buf (5 * k) 5 with
    | some [u0, u1, u2, u3, u4] => decInBeat w ⟨u0, u1, u2, u3, u4⟩ :: decBeats w buf (k + 1) n
    | _ => []

/-- The receipt of a successful call: `OK`, and its output from offset 0 upward (30_encoding.md R88, R92). -/
def receiptOk (out : List Byte) : Receipt := { res := resultWord false true .none 0, out := Memory.ofUnits 0 out }

/-- The receipt of a failed call: `ERR cause pos`, and no output (30_encoding.md R88, R92; 60_exceptions.md R228). -/
def receiptErr (c : Cause) (pos : Nat) : Receipt := { res := resultWord true false c (BitVec.ofNat 32 pos), out := [] }

/-- The receipt of a VAL call: `TRUE`, or `FALSE cause pos`; `err` is 0 (30_encoding.md R88, R92). -/
def receiptVal (v : Verdict) : Receipt := { res := resultWord false v.verdict v.cause (BitVec.ofNat 32 v.pos), out := [] }

/-- The receipt that an ENC or DEC call with a given outcome leaves; none where the buffer was too short. -/
def CallResult.receipt : CallResult → Option Receipt
  | .returns out => some (receiptOk out)
  | .raises c p => some (receiptErr c p)
  | .bufferTooShort => none

end Sys2Proof.Machine
end

