-- ==== Sys2Proof/Machine/Instances.lean ====
section
/-! DEFINITION. Several instances (60_exceptions.md R235): each with its own ports and its own state, sharing only the ROMs,
which are constants (log entry 12). -/

namespace Sys2Proof.Machine

/-- One rising edge of instance `k` among several; a number beyond them names no instance. -/
def stepInstance (ms : List State) (k : Nat) : Host.Outcome (List State) Fault Refusal :=
  match ms[k]? with
  | none => .next ms
  | some s =>
    match step s with
    | .next t => .next (ms.set k t)
    | .fault f => .fault f
    | .refused r => .refused r

/-- The rising edges of several instances, one after the other in any interleaving: `ks` names the instance of each edge. There is
"no ordering between calls on different instances" (60_exceptions.md R235), so every `ks` is a run. -/
def runInstances (ms : List State) : List Nat → Host.Outcome (List State) Fault Refusal
  | [] => .next ms
  | k :: ks =>
    match stepInstance ms k with
    | .next m => runInstances m ks
    | .fault f => .fault f
    | .refused r => .refused r

end Sys2Proof.Machine
end

