-- ==== Sys2Proof/Safety.lean ====
section
/-! DEFINITION. What counts as a safe state and a safe run of z85_core: the invariants the spec states over its registers
(10_state.md R23 to R27, 60_exceptions.md R220 to R224), in the terms statements use. -/

namespace Sys2Proof.Machine

/-- What the argument checks of the command in the registers answer (40_call_protocol.md R114). -/
def State.check (s : State) : Check := checkOf s.par s.op s.size.toInt s.len.toNat

/-- The invariant of the machine. Every clause is of a rule; together they hold at reset and every step keeps them. -/
structure StateInv (s : State) : Prop where
  /-- The parameters are in range (00_scope.md R5). -/
  parameters : s.par.wf = true
  /-- `IDX_OUT` plus what waits in `Q` never exceeds `IDX_IN` (10_state.md R24). -/
  delivered_le_consumed : s.idxOut.toNat + s.q.length ≤ s.idxIn.toNat
  /-- `IDX_IN <= TOTAL` (10_state.md R24). -/
  consumed_le_total : s.idxIn.toNat ≤ s.total.toNat
  /-- `TOTAL <= 429496729` (10_state.md R23). -/
  total_bound : s.total.toNat ≤ 429496729
  /-- `|Q| <= PIPE_DEPTH` (10_state.md R27). -/
  queue_bound : s.q.length ≤ s.par.pipeDepth
  /-- `Q` holds something only in RUN (40_call_protocol.md R116, R117). -/
  queue_only_in_run : s.phase ≠ .run → s.q = []
  /-- A raised `out_valid` has a beat to show (40_call_protocol.md R116). -/
  shown_beat : s.outUp = true → s.q ≠ []
  /-- The result word is on offer only after all input beats (20_memory.md R60). -/
  result_after_beats : s.phase = .result → s.idxIn = s.total
  /-- "With equality while `FAIL = 0` in ENC and DEC" (10_state.md R24). -/
  exact_while_ok : s.fail = false → (s.op = .enc ∨ s.op = .dec) → s.idxOut.toNat + s.q.length = s.idxIn.toNat
  /-- VAL and RSV3 deliver no output beat (40_call_protocol.md R122). -/
  no_output : (s.op = .val ∨ s.op = .rsv3) → s.q = [] ∧ s.idxOut = 0
  /-- `CAUSE` is 0 exactly while `FAIL = 0` (10_state.md R25). -/
  cause_iff_fail : s.fail = true ↔ s.cause ≠ .none
  /-- `POS` is 0 but for causes 5 and 6 (10_state.md R25, 60_exceptions.md R220). -/
  pos_zero : s.cause ≠ .badChar → s.cause ≠ .outOfRange → s.pos = 0
  /-- For causes 5 and 6, `POS` is `5 * k` for a consumed chunk `k` (42_decode.md R172); a DEC call delivers the output of
  the chunks before it (40_call_protocol.md R122). -/
  pos_chunk : (s.cause = .badChar ∨ s.cause = .outOfRange) →
    ∃ k < s.idxIn.toNat, s.pos.toNat = 5 * k ∧ (s.op = .dec → s.idxOut.toNat + s.q.length = k)
  /-- During a call `TOTAL` is what the checks answered (10_state.md R23). -/
  total_checked : s.phase ≠ .idle → s.total = s.check.total
  /-- During a call whose checks failed, `FAIL` and `CAUSE` are what they answered (40_call_protocol.md R113, R124). -/
  failed_check : s.phase ≠ .idle → s.check.fail = true → s.fail = true ∧ s.cause = s.check.cause
  /-- A call that passed its checks can fail only by a chunk, and ENC not at all (60_exceptions.md R221, 10_state.md R25). -/
  passed_check : s.phase ≠ .idle → s.check.fail = false →
    s.cause = .none ∨ (s.op ≠ .enc ∧ (s.cause = .badChar ∨ s.cause = .outOfRange))
  /-- OUT holds exactly the units delivered so far, from offset 0 upward (20_memory.md R50, R53). -/
  out_cells : s.phase ≠ .idle → s.out.map Prod.fst = List.range (unitsPerOutBeat s.op * s.idxOut.toNat)
  /-- Between calls nothing provisional is held (60_exceptions.md R228). -/
  out_between_calls : s.phase = .idle → s.out = []

/-- No coming edge is a reset. -/
def State.noReset (s : State) : Prop := ∀ e ∈ s.edges, e.rst = false

/-- The command words that the next `n` edges bring. -/
def State.newCmds (s : State) (n : Nat) : List CmdWord := (s.edges.take n).filterMap Edge.newCmd

/-- The input beats that the next `n` edges bring. -/
def State.newBeats (s : State) (n : Nat) : List InBeat := (s.edges.take n).filterMap Edge.newBeat

/-- A safe state: however long it runs, the machine never stops. -/
def State.safe (s : State) : Prop := ∀ n, ∃ t, Sys2Proof.core.run n s = .next t

/-- Among other instances, `s` delivers `r`: wherever an instance in state `s` stands among instances in states of the invariant, and
however their edges are interleaved, the run goes on, and once `s` has had `n` edges of its own its next receipt is `r`. How many
depends on `s` alone (60_exceptions.md R235, 20_memory.md R60; log entry 12). -/
def State.deliversAmongOthers (s : State) (r : Receipt) : Prop :=
  ∃ n, ∀ (ms : List State) (i : Nat) (ks : List Nat), ms[i]? = some s → (∀ m ∈ ms, StateInv m) → n ≤ ks.count i →
    ∃ ms' t, runInstances ms ks = .next ms' ∧ ms'[i]? = some t ∧ s.receipts ++ [r] <+: t.receipts

end Sys2Proof.Machine
end

