-- ==== Sys2Proof/Certificates/Slice0/Obligations.lean ====
section
/-! DEFINITION. The statements about z85_core, each from numbered rules of spec/. -/

open Sys2Proof Sys2Proof.Machine

/-! ## The command word and the step -/

/-- No bit of a command word is dropped: every command that a word can hold comes back from its word
(30_encoding.md R84 to R87). -/
def Obligations.DecodeOfEncodeIsTheCommand : Prop :=
  ∀ i : Instr, i.wellFormed = true → decode (encode i) = i

/-- Every word of 65 bits holds one well-formed command, and is that command's word (30_encoding.md R84, R87). -/
def Obligations.EncodeOfDecodeIsTheWord : Prop :=
  ∀ w : CmdWord, (decode w).wellFormed = true ∧ encode (decode w) = w

/-- The fields of a word read as numbers: `len` is its low 31 bits, `size` the next 32 as `signed32`, and `op` the
top two, of which the operation is a function (30_encoding.md R84, R85, R86). -/
def Obligations.WordFieldsAreReadAsSizeLenAndOp : Prop :=
  ∀ w : CmdWord,
    (decode w).len = w.toNat % 2 ^ 31 ∧
    (decode w).size = (if w.toNat / 2 ^ 31 % 2 ^ 32 < 2 ^ 31 then ((w.toNat / 2 ^ 31 % 2 ^ 32 : Nat) : Int)
      else ((w.toNat / 2 ^ 31 % 2 ^ 32 : Nat) : Int) - 2 ^ 32) ∧
    ((decode w).op = .enc ↔ w.toNat / 2 ^ 63 = 0) ∧ ((decode w).op = .dec ↔ w.toNat / 2 ^ 63 = 1) ∧
    ((decode w).op = .val ↔ w.toNat / 2 ^ 63 = 2) ∧ ((decode w).op = .rsv3 ↔ w.toNat / 2 ^ 63 = 3)

/-- Words of 95_test_vectors.md section 2.8 decode to the calls written beside them. -/
def Obligations.SampleWordsDecode : Prop :=
  decode 0x00000000200000004#65 = .enc 4 4 ∧ decode 0x07FFFFFFE00000008#65 = .enc (-4) 8 ∧
  decode 0x0800000050000000A#65 = .dec 10 10 ∧ decode 0x10000000000000005#65 = .val 0 5 ∧
  decode 0x1FFFFFFFFFFFFFFFF#65 = .rsv3 (-1) 2147483647

/-- A step in IDLE with a command on offer, and no reset, is `exec` of the decoded command, in the state that the edge
samples: what the edge brings stands behind what was on offer, and the edge is used up (40_call_protocol.md R112, R113). -/
def Obligations.StepRunsTheDecodedCommand : Prop :=
  ∀ (s : State) (w : CmdWord) (cs : List CmdWord),
    s.edge.rst = false → s.phase = .idle → s.cmds ++ s.edge.newCmd.toList = w :: cs →
    step s = exec (decode w)
      { s with cmds := w :: cs, ins := s.ins ++ s.edge.newBeat.toList, edges := s.edges.tail }

/-! ## CMD-ACCEPT -/

/-- ENC is accepted in IDLE: the next state, whole (40_call_protocol.md R113). What `enc_check` answers is
`EncCheckAnswersTheFirstCause`. -/
def Obligations.EncCommandIsAccepted : Prop :=
  ∀ (s : State) (size : BitVec 32) (len : BitVec 31), s.phase = .idle →
    exec (.enc size.toInt len.toNat) s = .next
      { s with
        phase := .run, op := .enc, size := size, len := len, idxIn := 0, idxOut := 0, q := [], outUp := false, pos := 0
        fail := (encCheck s.par size.toInt len.toNat).fail
        cause := (encCheck s.par size.toInt len.toNat).cause
        total := (encCheck s.par size.toInt len.toNat).total
        cmds := s.cmds.tail }

/-- DEC is accepted in IDLE: the next state, whole (40_call_protocol.md R113). What `dec_check` answers is
`DecCheckAnswersTheFirstCause`. -/
def Obligations.DecCommandIsAccepted : Prop :=
  ∀ (s : State) (size : BitVec 32) (len : BitVec 31), s.phase = .idle →
    exec (.dec size.toInt len.toNat) s = .next
      { s with
        phase := .run, op := .dec, size := size, len := len, idxIn := 0, idxOut := 0, q := [], outUp := false, pos := 0
        fail := (decCheck size.toInt len.toNat).fail
        cause := (decCheck size.toInt len.toNat).cause
        total := (decCheck size.toInt len.toNat).total
        cmds := s.cmds.tail }

/-- VAL is accepted in IDLE: the next state, whole (40_call_protocol.md R113); `size` is loaded, and the check does not
read it (43_isvalid.md R180). What `val_check` answers is `ValCheckAnswersByTheLength`. -/
def Obligations.ValCommandIsAccepted : Prop :=
  ∀ (s : State) (size : BitVec 32) (len : BitVec 31), s.phase = .idle →
    exec (.val size.toInt len.toNat) s = .next
      { s with
        phase := .run, op := .val, size := size, len := len, idxIn := 0, idxOut := 0, q := [], outUp := false, pos := 0
        fail := (valCheck len.toNat).fail
        cause := (valCheck len.toNat).cause
        total := (valCheck len.toNat).total
        cmds := s.cmds.tail }

/-- RSV3 is accepted in IDLE: the next state, whole, with cause 7 and no chunks whatever the operands (30_encoding.md R87,
40_call_protocol.md R113, R124). -/
def Obligations.RsvCommandIsAccepted : Prop :=
  ∀ (s : State) (size : BitVec 32) (len : BitVec 31), s.phase = .idle →
    exec (.rsv3 size.toInt len.toNat) s = .next
      { s with
        phase := .run, op := .rsv3, size := size, len := len, idxIn := 0, idxOut := 0, q := [], outUp := false, pos := 0
        fail := true, cause := .badOp, total := 0
        cmds := s.cmds.tail }

/-- `enc_check`, condition by condition, for every `size` and every `len` of 31 bits, and `MAX_INPUT_LENGTH` as the largest multiple
of 4 whose output length is at most `MAX_SEQ_LEN` (41_encode.md R141; 60_exceptions.md R221, R222). The five premises exclude
each other. -/
def Obligations.EncCheckAnswersTheFirstCause : Prop :=
  ∀ (p : Params) (size : Int) (len : Nat), len < 2 ^ 31 →
    (maxInputLength p % 4 = 0 ∧ maxInputLength p / 4 * 5 ≤ p.maxSeqLen ∧
      p.maxSeqLen < (maxInputLength p + 4) / 4 * 5) ∧
    (size < 0 → encCheck p size len = ⟨true, .sizeNeg, 0⟩) ∧
    (0 ≤ size ∧ (len : Int) < size → encCheck p size len = ⟨true, .sizeGtLen, 0⟩) ∧
    (0 ≤ size ∧ size ≤ len ∧ size % 4 ≠ 0 → encCheck p size len = ⟨true, .sizeNotMult, 0⟩) ∧
    (0 ≤ size ∧ size ≤ len ∧ size % 4 = 0 ∧ (maxInputLength p : Int) < size →
      encCheck p size len = ⟨true, .sizeTooLarge, 0⟩) ∧
    (0 ≤ size ∧ size ≤ len ∧ size % 4 = 0 ∧ size ≤ (maxInputLength p : Int) →
      (encCheck p size len).fail = false ∧ (encCheck p size len).cause = .none ∧
      ((encCheck p size len).total.toNat : Int) = size / 4)

/-- `dec_check`, condition by condition (42_decode.md R166, R167; 60_exceptions.md R221, R222). -/
def Obligations.DecCheckAnswersTheFirstCause : Prop :=
  ∀ (size : Int) (len : Nat), len < 2 ^ 31 →
    (size < 0 → decCheck size len = ⟨true, .sizeNeg, 0⟩) ∧
    (0 ≤ size ∧ (len : Int) < size → decCheck size len = ⟨true, .sizeGtLen, 0⟩) ∧
    (0 ≤ size ∧ size ≤ len ∧ size % 5 ≠ 0 → decCheck size len = ⟨true, .sizeNotMult, 0⟩) ∧
    (0 ≤ size ∧ size ≤ len ∧ size % 5 = 0 →
      (decCheck size len).fail = false ∧ (decCheck size len).cause = .none ∧
      ((decCheck size len).total.toNat : Int) = size / 5)

/-- `val_check`: the length alone decides (43_isvalid.md R182). -/
def Obligations.ValCheckAnswersByTheLength : Prop :=
  ∀ len : Nat, len < 2 ^ 31 →
    (len % 5 ≠ 0 → valCheck len = ⟨true, .sizeNotMult, 0⟩) ∧
    (len % 5 = 0 → (valCheck len).fail = false ∧ (valCheck len).cause = .none ∧ (valCheck len).total.toNat = len / 5)

/-- A command that reaches a block which is not in IDLE waits: `cmd_ready` is 0 and nothing changes, for every command
(40_call_protocol.md R126). That such a meaning changes nothing is the model's form of waiting (log entry 7). -/
def Obligations.CommandWaitsWhileACallRuns : Prop :=
  ∀ (i : Instr) (s : State) (e : Edge), s.phase ≠ .idle → exec i s = .next s ∧ cmdReady e s = false

/-! ## IN-ACCEPT -/

/-- An ENC beat: its 32 low bits are encoded and the chunk stands at the tail of `Q`; no flag changes (41_encode.md R145,
40_call_protocol.md R115). -/
def Obligations.EncBeatAppendsItsChunk : Prop :=
  ∀ (s : State) (b : InBeat) (r : List InBeat), s.op = .enc → s.ins = b :: r →
    inAccept s = .next { s with ins := r, idxIn := s.idxIn + 1, q := s.q ++ [encChunk (BitVec.ofNat 32 b)] }

/-- A DEC beat: drained after a failure; else its chunk is appended, or the failure is recorded with `POS = 5 * k`
(42_decode.md R168, 40_call_protocol.md R115, R123). -/
def Obligations.DecBeatDecodesOrFailsOrDrains : Prop :=
  ∀ (s : State) (b : InBeat) (r : List InBeat), s.op = .dec → s.ins = b :: r →
    (s.fail = true → inAccept s = .next { s with ins := r, idxIn := s.idxIn + 1 }) ∧
    (∀ v, s.fail = false → decChunk (lanes5 s.par.charW b) = .ok v →
      inAccept s = .next { s with ins := r, idxIn := s.idxIn + 1, q := s.q ++ [0x00#8 ++ v] }) ∧
    (∀ c, s.fail = false → decChunk (lanes5 s.par.charW b) = .fail c →
      inAccept s = .next { s with
        ins := r, idxIn := s.idxIn + 1, fail := true, cause := c, pos := BitVec.ofNat 32 (5 * s.idxIn.toNat) })

/-- A VAL beat: as DEC, with nothing appended to `Q` (43_isvalid.md R183, 40_call_protocol.md R115, R123). -/
def Obligations.ValBeatChecksWithoutOutput : Prop :=
  ∀ (s : State) (b : InBeat) (r : List InBeat), s.op = .val → s.ins = b :: r →
    (s.fail = true → inAccept s = .next { s with ins := r, idxIn := s.idxIn + 1 }) ∧
    (∀ v, s.fail = false → decChunk (lanes5 s.par.charW b) = .ok v →
      inAccept s = .next { s with ins := r, idxIn := s.idxIn + 1 }) ∧
    (∀ c, s.fail = false → decChunk (lanes5 s.par.charW b) = .fail c →
      inAccept s = .next { s with
        ins := r, idxIn := s.idxIn + 1, fail := true, cause := c, pos := BitVec.ofNat 32 (5 * s.idxIn.toNat) })

/-- A beat consumed while `OP` is RSV3 has no rule, and stops the model (40_call_protocol.md R115 derives that it cannot occur;
the stop is the model's choice, log entry 8). `TheInvariantIsKept` says that it never happens. -/
def Obligations.RsvBeatStopsTheModel : Prop :=
  ∀ (s : State) (b : InBeat) (r : List InBeat), s.op = .rsv3 → s.ins = b :: r → inAccept s = .fault .noBeatRule

/-! ## The other events -/

/-- An edge in RUN without FINISH: the input transfer first, then the output transfer, either or both; an output beat on offer
that is not taken stays on offer (40_call_protocol.md R111, R115, R116, R119). -/
def Obligations.RunEdgeTransfersInThenOut : Prop :=
  ∀ (s t : State), s.edge.rst = false → s.phase = .run → finishEnabled (arrive s) = false →
    (inTransfers s.edge (arrive s) = true → inAccept (arrive s) = .next t →
      (outTransfers s.edge (arrive s) = true → step s = .next (deliverOut t)) ∧
      (outTransfers s.edge (arrive s) = false →
        step s = .next { t with outUp := t.outUp || outValid s.edge (arrive s) })) ∧
    (inTransfers s.edge (arrive s) = false →
      (outTransfers s.edge (arrive s) = true → step s = .next (deliverOut (arrive s))) ∧
      (outTransfers s.edge (arrive s) = false →
        step s = .next { arrive s with outUp := s.outUp || outValid s.edge (arrive s) }))

/-- OUT-DELIVER: the head leaves `Q`, `IDX_OUT` moves by one, and of OUT exactly the units of the beat are written, from the offset
`IDX_OUT` times the units of a beat; every other address reads as before, and no other register changes
(40_call_protocol.md R116, 20_memory.md R53). -/
def Obligations.OutDeliverWritesOneChunkOfOut : Prop :=
  ∀ (s : State) (b : OutBeat) (r : List OutBeat), s.q = b :: r →
    deliverOut s =
      { s with q := r, outUp := false, idxOut := s.idxOut + 1, out := (deliverOut s).out } ∧
    (∀ a, unitsPerOutBeat s.op * s.idxOut.toNat ≤ a → a < unitsPerOutBeat s.op * (s.idxOut.toNat + 1) →
      Memory.read (deliverOut s).out a = (outUnits s.op b)[a - unitsPerOutBeat s.op * s.idxOut.toNat]?) ∧
    (∀ a, (a < unitsPerOutBeat s.op * s.idxOut.toNat ∨ unitsPerOutBeat s.op * (s.idxOut.toNat + 1) ≤ a) →
      Memory.read (deliverOut s).out a = Memory.read s.out a)

/-- IN-ACCEPT and OUT-DELIVER at one edge: "if both orders qualify they give the same state" (40_call_protocol.md R119). -/
def Obligations.InAcceptAndOutDeliverCommute : Prop :=
  ∀ s t : State, s.q ≠ [] → inAccept s = .next t → inAccept (deliverOut s) = .next (deliverOut t)

/-- FINISH: `PHASE <- RESULT` and nothing else, at an edge at which the block does not put it off (40_call_protocol.md R117). -/
def Obligations.FinishMovesToResult : Prop :=
  ∀ s : State, s.edge.rst = false → s.phase = .run → s.idxIn = s.total → s.q = [] →
    (s.edge.finHold = false → step s = .next { arrive s with phase := .result }) ∧
    (s.edge.finHold = true → step s = .next (arrive s))

/-- RES-DELIVER: the host gets the result word of `FAIL`, `CAUSE`, `POS`, and the output unless `err` is 1; no register of the
block but `PHASE` changes. Without `res_ready` the word waits (40_call_protocol.md R118, 30_encoding.md R88, 60_exceptions.md R228). -/
def Obligations.ResultDeliverEndsTheCall : Prop :=
  ∀ s : State, s.edge.rst = false → s.phase = .result →
    (s.edge.resReady = true → step s = .next { arrive s with
      phase := .idle
      receipts := s.receipts ++ [{
        res := resultWord (s.fail && decide (s.op ≠ .val)) (!s.fail) s.cause s.pos
        out := if s.fail && decide (s.op ≠ .val) then [] else s.out }]
      out := [] }) ∧
    (s.edge.resReady = false → step s = .next (arrive s))

/-- Reset at any moment: every register with a reset value takes it, no transfer happens, no result word is delivered, delivered
output is void, and offers stay unless the agents are reset as well (70_reset_and_hazards.md R250, R251, R253; 10_state.md R37). -/
def Obligations.ResetAbortsTheCall : Prop :=
  ∀ s : State, s.edge.rst = true → ∃ t, step s = .next t ∧
    t.phase = .idle ∧ t.total = 0 ∧ t.idxIn = 0 ∧ t.idxOut = 0 ∧ t.fail = false ∧ t.cause = .none ∧ t.pos = 0 ∧
    t.q = [] ∧ t.outUp = false ∧ t.out = [] ∧ t.receipts = s.receipts ∧ t.par = s.par ∧ t.edges = s.edges.tail ∧
    (s.edge.withdraw = false →
      t.cmds = s.cmds ++ s.edge.newCmd.toList ∧ t.ins = s.ins ++ s.edge.newBeat.toList) ∧
    (s.edge.withdraw = true → t.cmds = [] ∧ t.ins = [])

/-- The block waits, and changes nothing, in IDLE without a command and in RUN while it is starved of an input beat
(70_reset_and_hazards.md R257, 60_exceptions.md R236). -/
def Obligations.BlockWaitsWithoutAnOffer : Prop :=
  ∀ s : State, s.edge.rst = false →
    (s.phase = .idle → s.cmds = [] → s.edge.newCmd = none → step s = .next (arrive s)) ∧
    (s.phase = .run → s.q = [] → s.idxIn ≠ s.total → s.ins = [] → s.edge.newBeat = none → step s = .next (arrive s))

/-! ## The machine as a whole -/

/-- The invariant holds at reset (10_state.md R20 to R28, R37). -/
def Obligations.TheInvariantHoldsAtReset : Prop := StateInv State.reset

/-- From every state of the invariant, reached or not, a step answers a next state, and the invariant holds there: the machine never
stops (10_state.md R23 to R27; 60_exceptions.md R220, R221). -/
def Obligations.TheInvariantIsKept : Prop :=
  ∀ s : State, StateInv s → ∃ t, step s = .next t ∧ StateInv t

/-- However long it runs, the machine never stops: from every state of the invariant, and so from reset (40_call_protocol.md R112,
60_exceptions.md R230). -/
def Obligations.TheMachineNeverStops : Prop := ∀ s : State, StateInv s → s.safe

/-- The phases follow each other in one order only: "There is no other transition" (40_call_protocol.md R112). -/
def Obligations.PhasesFollowInOneOrder : Prop :=
  ∀ s t : State, step s = .next t →
    (s.edge.rst = true → t.phase = .idle) ∧
    (s.edge.rst = false → s.phase = .idle → t.phase = .idle ∧ t.op = s.op ∨ t.phase = .run ∧ (arrive s).cmds ≠ []) ∧
    (s.edge.rst = false → s.phase = .run → t.phase = .run ∨ t.phase = .result ∧ s.idxIn = s.total ∧ s.q = []) ∧
    (s.edge.rst = false → s.phase = .result → t.phase = .result ∨ t.phase = .idle ∧ s.edge.resReady = true)

/-- "Once `FAIL = 1` no later event of the call changes `FAIL`, `CAUSE` or `POS`" (10_state.md R25). -/
def Obligations.TheFirstFailureIsFinal : Prop :=
  ∀ s t : State, s.phase ≠ .idle → s.edge.rst = false → s.fail = true → step s = .next t →
    t.fail = true ∧ t.cause = s.cause ∧ t.pos = s.pos

/-- `OP`, `SIZE`, `LEN` and `TOTAL` are written by command acceptance and reset only (10_state.md R22, R23). -/
def Obligations.CommandRegistersAreConstantDuringACall : Prop :=
  ∀ s t : State, step s = .next t → s.edge.rst = false → ¬(s.phase = .idle ∧ t.phase = .run) →
    t.op = s.op ∧ t.size = s.size ∧ t.len = s.len ∧ t.total = s.total

/-- "Nothing a call leaves behind may change what a later call does" (10_state.md R36): two blocks in IDLE, alike but for every
register of the block, are in one state after they accept the command on offer. -/
def Obligations.NothingSurvivesIntoTheNextCall : Prop :=
  ∀ s s' : State, s.phase = .idle → s'.phase = .idle → s'.par = s.par → s'.cmds = s.cmds → s'.ins = s.ins →
    s'.out = s.out → s'.receipts = s.receipts → s'.edges = s.edges →
    s.edge.rst = false → (arrive s).cmds ≠ [] → step s' = step s

/-- The promise of the block: a raised `out_valid` stays raised, with the same `out_data`, until the transfer (40_call_protocol.md R111). -/
def Obligations.RaisedOutputStaysRaised : Prop :=
  ∀ s t : State, StateInv s → outValid s.edge (arrive s) = true → outTransfers s.edge (arrive s) = false → step s = .next t →
    t.edge.rst = false →
    outValid t.edge (arrive t) = true ∧ outData t.edge (arrive t) = outData s.edge (arrive s)

/-- What the block drives, phase by phase (40_call_protocol.md R120, 70_reset_and_hazards.md R250). -/
def Obligations.PortsFollowThePhase : Prop :=
  ∀ (e : Edge) (s : State), StateInv s →
    (cmdReady e s = true ↔ s.phase = .idle ∧ e.rst = false) ∧
    (inReady e s = true → s.phase = .run ∧ s.idxIn.toNat < s.total.toNat ∧ s.q.length < s.par.pipeDepth ∧ e.rst = false) ∧
    (outValid e s = true → s.q ≠ [] ∧ s.phase = .run ∧ e.rst = false) ∧
    (resValid e s = true ↔ s.phase = .result ∧ e.rst = false)

/-- The fields of the result word, and the words no call produces (30_encoding.md R88; 95_test_vectors.md section 2.9). -/
def Obligations.ResultWordTellsTheOutcome : Prop :=
  ∀ s : State, StateInv s →
    (resErr s.result = true ↔ s.fail = true ∧ s.op ≠ .val) ∧
    (resVerdict s.result = true ↔ s.fail = false) ∧
    resCause s.result = s.cause.code ∧ resPos s.result = s.pos ∧
    (resVerdict s.result = true ↔ resCause s.result = 0) ∧
    (resErr s.result = true → resVerdict s.result = false) ∧
    (resPos s.result).toNat % 5 = 0 ∧
    (resCause s.result ≠ 5 → resCause s.result ≠ 6 → resPos s.result = 0)

/-- The beats a call has consumed and delivered when its result word is on offer (40_call_protocol.md R122, R124). -/
def Obligations.BeatCountsWhenTheResultIsOffered : Prop :=
  ∀ s : State, StateInv s → s.phase = .result →
    s.idxIn = s.total ∧
    (s.op = .enc → s.idxOut = s.total) ∧
    (s.op = .dec → s.fail = false → s.idxOut = s.total) ∧
    (s.op = .dec → (s.cause = .badChar ∨ s.cause = .outOfRange) → s.pos.toNat = 5 * s.idxOut.toNat) ∧
    (s.op = .val ∨ s.op = .rsv3 → s.idxOut = 0) ∧
    (s.check.fail = true → s.idxIn = 0 ∧ s.idxOut = 0)

/-- Every step keeps the canonical form of OUT, in every state (20_memory.md R50; the form is the model's, log entry 5). -/
def Obligations.OutStaysCanonical : Prop :=
  ∀ s t : State, Memory.wf s.out = true → step s = .next t → Memory.wf t.out = true

/-- No step changes a parameter, and results are delivered one at a time and kept (00_scope.md R5, 40_call_protocol.md R122). -/
def Obligations.ParametersAreFixedAndResultsKept : Prop :=
  ∀ s t : State, step s = .next t → t.par = s.par ∧ (t.receipts = s.receipts ∨
    ∃ r, t.receipts = s.receipts ++ [r] ∧ s.phase = .result ∧ t.phase = .idle ∧ r.res = s.result)

/-- Calls on several instances run in parallel (60_exceptions.md R235, 20_memory.md R60 (6); several instances as a list of states, and
their parallel edges as an interleaving, are the model's, log entry 12). A run of several instances, in any interleaving, answers
the states to which each instance's own edges take it alone, and it answers them exactly when each of those runs does. So a call on one of them is
delivered with the receipt its caller is owed by `encode`, `decode`, `isValid` or R87, whatever calls, resets, parameters and schedules
the others have, and after a number of its own edges on which they have no say. -/
def Obligations.InstancesAreIndependent : Prop :=
  (∀ (ms ms' : List State) (ks : List Nat), runInstances ms ks = .next ms' ↔
    ms'.length = ms.length ∧
    ∀ (i : Nat) (s : State), ms[i]? = some s → ∃ t : State, ms'[i]? = some t ∧ Sys2Proof.core.run (ks.count i) s = .next t) ∧
  ∀ (s : State) (size : BitVec 32) (cs : List CmdWord) (rest : List InBeat), StateInv s → s.phase = .idle → s.noReset →
    (∀ buf : List Byte, buf.length < 2 ^ 31 → s.cmds = encode (.enc size.toInt buf.length) :: cs →
      s.ins = encBeats buf 0 (encCheck s.par size.toInt buf.length).total.toNat ++ rest →
      ∃ r, (encodeCall s.par buf size.toInt buf.length).receipt = some r ∧ s.deliversAmongOthers r) ∧
    (∀ buf : List Nat, buf.length < 2 ^ 31 → (∀ u ∈ buf, u < 2 ^ s.par.charW) →
      s.cmds = encode (.dec size.toInt buf.length) :: cs →
      s.ins = decBeats s.par.charW buf 0 (decCheck size.toInt buf.length).total.toNat ++ rest →
      ∃ r, (decodeCall buf size.toInt buf.length).receipt = some r ∧ s.deliversAmongOthers r) ∧
    (∀ buf : List Nat, buf.length < 2 ^ 31 → (∀ u ∈ buf, u < 2 ^ s.par.charW) →
      s.cmds = encode (.val size.toInt buf.length) :: cs →
      s.ins = decBeats s.par.charW buf 0 (valCheck buf.length).total.toNat ++ rest →
      ∃ v, isValidCall buf buf.length = some v ∧ s.deliversAmongOthers (receiptVal v)) ∧
    (∀ len : BitVec 31, s.cmds = encode (.rsv3 size.toInt len.toNat) :: cs →
      s.deliversAmongOthers { res := 0x1700000000#37, out := [] })

/-! ## Calls, from the command word to the result word

Each for every schedule: every state of the invariant in IDLE whose coming edges hold no reset, whoever holds back and whatever
else is offered meanwhile. `buf` is the caller's buffer, and `len` tells the truth about it (70_reset_and_hazards.md R261). -/

/-- An ENC call ends, consumes one command word and exactly its beats, and its receipt is what `encode` gives its caller
(41_encode.md R146; 40_call_protocol.md R121, R122, R125). -/
def Obligations.EncCallEndsWithItsEncoding : Prop :=
  ∀ (s : State) (size : BitVec 32) (buf : List Byte) (cs : List CmdWord) (rest : List InBeat),
    StateInv s → s.phase = .idle → s.noReset → buf.length < 2 ^ 31 →
    s.cmds = encode (.enc size.toInt buf.length) :: cs →
    s.ins = encBeats buf 0 (encCheck s.par size.toInt buf.length).total.toNat ++ rest →
    ∃ n t r, Sys2Proof.core.run n s = .next t ∧ t.phase = .idle ∧
      (encodeCall s.par buf size.toInt buf.length).receipt = some r ∧ t.receipts = s.receipts ++ [r] ∧
      t.cmds = cs ++ s.newCmds n ∧ t.ins = rest ++ s.newBeats n

/-- A DEC call ends, consumes one command word and exactly its beats, and its receipt is what `decode` gives its caller
(42_decode.md R169; 40_call_protocol.md R121, R122, R123, R125). -/
def Obligations.DecCallEndsWithItsDecoding : Prop :=
  ∀ (s : State) (size : BitVec 32) (buf : List Nat) (cs : List CmdWord) (rest : List InBeat),
    StateInv s → s.phase = .idle → s.noReset → buf.length < 2 ^ 31 → (∀ u ∈ buf, u < 2 ^ s.par.charW) →
    s.cmds = encode (.dec size.toInt buf.length) :: cs →
    s.ins = decBeats s.par.charW buf 0 (decCheck size.toInt buf.length).total.toNat ++ rest →
    ∃ n t r, Sys2Proof.core.run n s = .next t ∧ t.phase = .idle ∧
      (decodeCall buf size.toInt buf.length).receipt = some r ∧ t.receipts = s.receipts ++ [r] ∧
      t.cmds = cs ++ s.newCmds n ∧ t.ins = rest ++ s.newBeats n

/-- A VAL call ends, consumes one command word and exactly its beats, and its result word is what `isValid` answers, whatever the
`size` field holds (43_isvalid.md R184; 40_call_protocol.md R121, R122, R123, R125). -/
def Obligations.ValCallEndsWithItsVerdict : Prop :=
  ∀ (s : State) (size : BitVec 32) (buf : List Nat) (cs : List CmdWord) (rest : List InBeat),
    StateInv s → s.phase = .idle → s.noReset → buf.length < 2 ^ 31 → (∀ u ∈ buf, u < 2 ^ s.par.charW) →
    s.cmds = encode (.val size.toInt buf.length) :: cs →
    s.ins = decBeats s.par.charW buf 0 (valCheck buf.length).total.toNat ++ rest →
    ∃ n t v, Sys2Proof.core.run n s = .next t ∧ t.phase = .idle ∧
      isValidCall buf buf.length = some v ∧ t.receipts = s.receipts ++ [receiptVal v] ∧
      t.cmds = cs ++ s.newCmds n ∧ t.ins = rest ++ s.newBeats n

/-- An RSV3 command consumes no beat and ends with `ERR 7 0`, whatever its operands (30_encoding.md R87). -/
def Obligations.RsvCallEndsWithBadOp : Prop :=
  ∀ (s : State) (size : BitVec 32) (len : BitVec 31) (cs : List CmdWord),
    StateInv s → s.phase = .idle → s.noReset → s.cmds = encode (.rsv3 size.toInt len.toNat) :: cs →
    ∃ n t, Sys2Proof.core.run n s = .next t ∧ t.phase = .idle ∧
      t.receipts = s.receipts ++ [{ res := 0x1700000000#37, out := [] }] ∧
      t.cmds = cs ++ s.newCmds n ∧ t.ins = s.ins ++ s.newBeats n

/-! ## Division -/

/-- `divBy5` and `divBy85` are true unsigned division on the whole 32-bit domain, with the bounds of the rules (44_division.md R190,
R191, R208). -/
def Obligations.DivisionsAreTrueUnsignedDivision : Prop :=
  ∀ x : BitVec 32, (divBy5 x).toNat = x.toNat / 5 ∧ (divBy5 x).toNat ≤ 858993459 ∧
    (divBy85 x).toNat = x.toNat / 85 ∧ (divBy85 x).toNat ≤ 50529027

/-- The multiply-and-shift realisation equals the division for every operand (44_division.md R192, R193, R194). -/
def Obligations.MultiplyAndShiftDividesExactly : Prop :=
  ∀ x : BitVec 32, divBy5MulShift x = divBy5 x ∧ divBy85MulShift x = divBy85 x

/-- The remainders formed from the quotients are the true ones, and the subtraction is exact (44_division.md R195). -/
def Obligations.RemaindersAreExact : Prop :=
  ∀ x : BitVec 32, (rem5 x).toNat = x.toNat % 5 ∧ (rem85 x).toNat = x.toNat % 85 ∧
    5 * (divBy5 x).toNat ≤ x.toNat ∧ 85 * (divBy85 x).toNat ≤ x.toNat

/-! ## Tables, lanes and chunks -/

/-- The table law: the INVERSE ROM gives each symbol its index and every other code the sentinel, and all symbols are distinct;
with its two consequences for `lookup` (20_memory.md R51, R52; 45_laws.md R207). -/
def Obligations.InverseTableInvertsTheAlphabet : Prop :=
  (∀ d : Digit, (inv (alpha d)).toNat = d.val) ∧ (∀ u : Byte, (∀ d, alpha d ≠ u) → inv u = 0xFF#8) ∧
    Function.Injective alpha ∧ (∀ d : Digit, lookup (alpha d).toNat = some d) ∧
    (∀ (u : Nat) (d : Digit), lookup u = some d → u = (alpha d).toNat)

/-- `lookup` finds a digit exactly for the code of its symbol, at any unit width: high bits are never dropped (42_decode.md R161). -/
def Obligations.LookupFindsExactlyTheSymbols : Prop :=
  ∀ (u : Nat) (d : Digit), lookup u = some d ↔ u = (alpha d).toNat

/-- The lanes of the beats: the unit with the lowest offset travels in the most significant lane, and nothing else in a beat is read
(20_memory.md R55, 41_encode.md R145). -/
def Obligations.LanesCarryTheUnitsInOrder : Prop :=
  (∀ (b0 b1 b2 b3 : Byte) (high : Nat), encInChunk (encInBeat b0 b1 b2 b3 + 2 ^ 32 * high) = be32 b0 b1 b2 b3) ∧
  (∀ (w : Nat) (u : Units5), u.u0 < 2 ^ w → u.u1 < 2 ^ w → u.u2 < 2 ^ w → u.u3 < 2 ^ w → u.u4 < 2 ^ w →
    lanes5 w (decInBeat w u) = u) ∧
  (∀ c0 c1 c2 c3 c4 : Byte, outUnits .enc (chars5 c0 c1 c2 c3 c4) = [c0, c1, c2, c3, c4]) ∧
  (∀ v : Chunk, outUnits .dec (decOutBeat v) = bytesBe v ∧ (decOutBeat v).toNat = v.toNat)

/-- Big-endian: the value of four bytes, and back (20_memory.md R56, 00_scope.md R7). -/
def Obligations.ChunksAreBigEndian : Prop :=
  ∀ b0 b1 b2 b3 : Byte,
    (be32 b0 b1 b2 b3).toNat = b0.toNat * 2 ^ 24 + b1.toNat * 2 ^ 16 + b2.toNat * 2 ^ 8 + b3.toNat ∧
    bytesBe (be32 b0 b1 b2 b3) = [b0, b1, b2, b3]

/-- The digits of a chunk value: they are its base-85 digits, most significant first, and the first is at most 82
(41_encode.md R143, R144). -/
def Obligations.EncoderDigitsSpellTheValue : Prop :=
  ∀ v : Chunk, digitsValue (encDigits v) = v.toNat ∧ (encDigits v).d0.val = v.toNat / 85 ^ 4 ∧
    (encDigits v).d0.val ≤ 82 ∧ (encDigits v).d1.val = v.toNat / 85 ^ 3 % 85 ∧
    (encDigits v).d2.val = v.toNat / 85 ^ 2 % 85 ∧ (encDigits v).d3.val = v.toNat / 85 % 85 ∧
    (encDigits v).d4.val = v.toNat % 85 ∧ encChunk v = charsOf (encDigits v)

/-- Horner's method in 33 bits is exact: "no step overflows" (42_decode.md R163). -/
def Obligations.AccumulatorNeverOverflows : Prop :=
  ∀ d : Digits5, (horner d).toNat = digitsValue d ∧ digitsValue d ≤ 85 ^ 5 - 1

/-- What the decoder answers on a chunk: cause 5 exactly when `bad_char`, else cause 6 exactly when the value is 2^32 or more, else
the value (42_decode.md R162, R164, R165; 60_exceptions.md R223). -/
def Obligations.ChunkFailsByCharacterThenByRange : Prop :=
  ∀ u : Units5,
    (decChunk u = .fail .badChar ↔ badChar u = true) ∧
    (badChar u = true → outOfRange u = false) ∧
    (∀ d, digitsOf u = some d →
      badChar u = false ∧ (outOfRange u = true ↔ 2 ^ 32 ≤ digitsValue d) ∧
      (decChunk u = .fail .outOfRange ↔ 2 ^ 32 ≤ digitsValue d) ∧
      (digitsValue d < 2 ^ 32 → decChunk u = .ok (BitVec.ofNat 32 (digitsValue d)))) ∧
    (badChar u = false → ∃ d, digitsOf u = some d)

/-- A unit outside the alphabet at any of the five positions fails the chunk, whatever the others (45_laws.md R205). -/
def Obligations.ForeignUnitFailsTheChunk : Prop :=
  ∀ u : Units5, ((lookup u.u0 = none) ∨ (lookup u.u1 = none) ∨ (lookup u.u2 = none) ∨ (lookup u.u3 = none) ∨
    (lookup u.u4 = none)) → decChunk u = .fail .badChar

/-! ## The laws of the calls -/

/-- Round trip from binary: `decode(encode(b)) == b` (45_laws.md R200), for every parameter. -/
def Obligations.DecodingUndoesEncoding : Prop :=
  ∀ (p : Params) (b : List Byte), p.wf = true → b.length % 4 = 0 → b.length ≤ maxInputLength p →
    ∃ t : List Byte, encodeCall p b b.length b.length = .returns t ∧
      decodeCall (t.map BitVec.toNat) t.length t.length = .returns b

/-- Round trip from text: `encode(decode(t)) == t` for every text that `isValid` accepts (45_laws.md R201). -/
def Obligations.EncodingUndoesDecoding : Prop :=
  ∀ (p : Params) (t : List Nat), p.wf = true → t.length < 2 ^ 31 → 4 * t.length / 5 ≤ maxInputLength p →
    isValidCall t t.length = some ⟨true, .none, 0⟩ →
    ∃ b t' : List Byte, decodeCall t t.length t.length = .returns b ∧
      encodeCall p b b.length b.length = .returns t' ∧ t'.map BitVec.toNat = t

/-- The validity checker and the decoder agree on every input, with the same cause and position (45_laws.md R202, 43_isvalid.md R186). -/
def Obligations.ValidityCheckerAgreesWithDecoder : Prop :=
  ∀ t : List Nat, t.length < 2 ^ 31 →
    ((∃ b, decodeCall t t.length t.length = .returns b) ↔ isValidCall t t.length = some ⟨true, .none, 0⟩) ∧
    (∀ c pos, decodeCall t t.length t.length = .raises c pos ↔ isValidCall t t.length = some ⟨false, c, pos⟩)

/-- The length law (45_laws.md R203): what a successful call returns is sized by its command word alone. -/
def Obligations.OutputLengthFollowsTheSize : Prop :=
  ∀ (p : Params) (size : Int) (len : Nat) (out : List Byte), len < 2 ^ 31 →
    (∀ buf : List Byte, encodeCall p buf size len = .returns out → (out.length : Int) = size / 4 * 5) ∧
    (∀ buf : List Nat, decodeCall buf size len = .returns out → (out.length : Int) = size / 5 * 4)

/-- The boundary law (45_laws.md R204): a size that is no multiple always fails, with cause 3, 1 or 2 (2 unless the size is negative
or above `len`); size 0 always succeeds with no output; the empty sequence is valid. -/
def Obligations.OnlyWholeChunksSucceed : Prop :=
  ∀ (p : Params) (bytes : List Byte) (text : List Nat) (size : Int) (len : Nat), len < 2 ^ 31 →
    (size % 4 ≠ 0 → encodeCall p bytes size len =
      .raises (if size < 0 then .sizeNeg else if (len : Int) < size then .sizeGtLen else .sizeNotMult) 0) ∧
    (size % 5 ≠ 0 → decodeCall text size len =
      .raises (if size < 0 then .sizeNeg else if (len : Int) < size then .sizeGtLen else .sizeNotMult) 0) ∧
    encodeCall p bytes 0 len = .returns [] ∧ decodeCall text 0 len = .returns [] ∧
    isValidCall text 0 = some ⟨true, .none, 0⟩

/-- Chunk independence: `encode` and `decode` distribute over concatenation of whole chunks (45_laws.md R209). -/
def Obligations.CallsDistributeOverWholeChunks : Prop :=
  (∀ (p : Params) (b1 b2 o1 o2 : List Byte), p.wf = true → b1.length + b2.length ≤ maxInputLength p →
    encodeCall p b1 b1.length b1.length = .returns o1 → encodeCall p b2 b2.length b2.length = .returns o2 →
    encodeCall p (b1 ++ b2) (b1 ++ b2).length (b1 ++ b2).length = .returns (o1 ++ o2)) ∧
  (∀ (t1 t2 : List Nat) (o1 o2 : List Byte), t1.length + t2.length < 2 ^ 31 →
    decodeCall t1 t1.length t1.length = .returns o1 → decodeCall t2 t2.length t2.length = .returns o2 →
    decodeCall (t1 ++ t2) (t1 ++ t2).length (t1 ++ t2).length = .returns (o1 ++ o2))
end

