-- ==== Sys2Proof/Laws/Datapath.lean ====
section
/-! SUPPORT. The numbers behind the operations of one chunk: each operation on words as arithmetic on `Nat`. -/

namespace Sys2Proof.Machine

theorem rem5_toNat (x : BitVec 32) : (rem5 x).toNat = x.toNat % 5 := by
  have := x.isLt
  simp only [rem5, divBy5, BitVec.toNat_udiv, BitVec.toNat_ofNat, BitVec.toNat_sub, BitVec.toNat_mul, Nat.reducePow, Nat.reduceMod]
  omega

theorem rem85_toNat (x : BitVec 32) : (rem85 x).toNat = x.toNat % 85 := by
  have := x.isLt
  simp only [rem85, divBy85, BitVec.toNat_udiv, BitVec.toNat_ofNat, BitVec.toNat_sub, BitVec.toNat_mul, Nat.reducePow, Nat.reduceMod]
  omega

theorem divBy85_toNat (x : BitVec 32) : (divBy85 x).toNat = x.toNat / 85 := by
  simp only [divBy85, BitVec.toNat_udiv, BitVec.toNat_ofNat, Nat.reducePow, Nat.reduceMod]

/-- The test of 42_decode.md R166 on a length, as the remainder. -/
theorem rem5_ofNat_ne_zero {n : Nat} (h : n < 2147483648) : rem5 (BitVec.ofNat 32 n) ≠ 0 ↔ n % 5 ≠ 0 := by
  have hn : (BitVec.ofNat 32 n).toNat = n := by
    rw [BitVec.toNat_ofNat, Nat.mod_eq_of_lt]
    simp only [Nat.reducePow]
    omega
  rw [Ne, ← BitVec.toNat_inj, rem5_toNat, hn]
  rfl

theorem divBy5_ofNat {n : Nat} (h : n < 2147483648) : (divBy5 (BitVec.ofNat 32 n)).toNat = n / 5 := by
  simp only [divBy5, BitVec.toNat_udiv, BitVec.toNat_ofNat, Nat.reducePow, Nat.reduceMod]
  omega

theorem be32_toNat (b0 b1 b2 b3 : Byte) :
    (be32 b0 b1 b2 b3).toNat = b0.toNat * 2 ^ 24 + b1.toNat * 2 ^ 16 + b2.toNat * 2 ^ 8 + b3.toNat := by
  have := b0.isLt
  have := b1.isLt
  have := b2.isLt
  have := b3.isLt
  unfold be32
  simp only [BitVec.toNat_append]
  rw [← Nat.shiftLeft_add_eq_or_of_lt (by omega), ← Nat.shiftLeft_add_eq_or_of_lt (by omega),
    ← Nat.shiftLeft_add_eq_or_of_lt (by omega)]
  simp only [Nat.shiftLeft_eq]
  omega

theorem byte_toNat (v : Chunk) (k : Nat) : (v.extractLsb' k 8).toNat = v.toNat / 2 ^ k % 256 := by
  simp [BitVec.extractLsb'_toNat, Nat.shiftRight_eq_div_pow]

/-- A number in base `2 ^ w`: its last digit, and the rest. -/
theorem lane_split {w a : Nat} (b : Nat) (ha : a < 2 ^ w) : (b * 2 ^ w + a) % 2 ^ w = a ∧ (b * 2 ^ w + a) / 2 ^ w = b := by
  have hp : 0 < 2 ^ w := Nat.two_pow_pos w
  constructor
  · rw [Nat.add_comm, Nat.add_mul_mod_self_right, Nat.mod_eq_of_lt ha]
  · rw [Nat.add_comm, Nat.add_mul_div_right _ _ hp, Nat.div_eq_of_lt ha, Nat.zero_add]

theorem decOutBeat_toNat (v : Chunk) : (decOutBeat v).toNat = v.toNat := by
  have := v.isLt
  unfold decOutBeat
  rw [BitVec.toNat_append]
  simp

theorem outUnits_length (op : Op) (b : OutBeat) : (outUnits op b).length = unitsPerOutBeat op := by
  cases op <;> rfl

/-- One step of Horner's method fits in 33 bits (42_decode.md R163). -/
theorem hornerStep_toNat {a : BitVec 33} (d : Digit) (h : a.toNat ≤ 52200624) :
    (hornerStep a d).toNat = a.toNat * 85 + d.val := by
  have hd := d.isLt
  have h1 : (a * 85#33).toNat = a.toNat * 85 := by
    rw [BitVec.toNat_mul, show (85#33).toNat = 85 from rfl, Nat.mod_eq_of_lt]
    simp only [Nat.reducePow]
    omega
  have h2 : (BitVec.ofNat 33 d.val).toNat = d.val := by
    rw [BitVec.toNat_ofNat, Nat.mod_eq_of_lt]
    simp only [Nat.reducePow]
    omega
  unfold hornerStep
  rw [BitVec.toNat_add, h1, h2, Nat.mod_eq_of_lt]
  simp only [Nat.reducePow]
  omega

theorem digitsOf_eq_none (u : Units5) : digitsOf u = none ↔ badChar u = true := by
  unfold digitsOf badChar
  cases lookup u.u0 <;> cases lookup u.u1 <;> cases lookup u.u2 <;> cases lookup u.u3 <;> cases lookup u.u4 <;> simp

/-- A cell that holds an index spells its digit. -/
theorem digitOfCell_ofNat (d : Digit) : digitOfCell (BitVec.ofNat 8 d.val) = some d := by
  revert d; decide

/-- Every cell of INVERSE is the sentinel or stands at the code of a symbol (30_encoding.md R81). -/
theorem inv_cells : ∀ u : Fin 256, inv (BitVec.ofFin u) = sentinel ∨ ∃ d : Digit, alpha d = BitVec.ofFin u := by
  decide +kernel

end Sys2Proof.Machine
end

