-- ==== Sys2Proof/Laws/Buffers.lean ====
section
/-! SUPPORT. The calls as functions of a buffer, chunk by chunk (41_encode.md R146, 42_decode.md R169, 43_isvalid.md R184). -/

namespace Sys2Proof.Machine

/-- Four units inside the buffer. -/
theorem bufferRead_four {α : Type} (buf : List α) (x : Nat) (h : x + 4 ≤ buf.length) : ∃ b0 b1 b2 b3,
    bufferRead buf x 4 = some [b0,b1,b2,b3] ∧ buf.drop x = b0 :: b1 :: b2 :: b3 :: buf.drop (x+4) := by
  have hl : 4 ≤ (buf.drop x).length := by simp; omega
  have hd : (buf.drop x).drop 4 = buf.drop (x+4) := by rw [List.drop_drop]
  unfold bufferRead
  rw [if_pos h]
  rcases hh : buf.drop x with _ | ⟨b0, _ | ⟨b1, _ | ⟨b2, _ | ⟨b3, r⟩⟩⟩⟩ <;> rw [hh] at hl hd <;> simp at hl hd
  exact ⟨b0, b1, b2, b3, rfl, by rw [← hd]⟩

/-- Five units inside the buffer. -/
theorem bufferRead_five {α : Type} (buf : List α) (x : Nat) (h : x + 5 ≤ buf.length) : ∃ b0 b1 b2 b3 b4,
    bufferRead buf x 5 = some [b0,b1,b2,b3,b4] ∧ buf.drop x = b0 :: b1 :: b2 :: b3 :: b4 :: buf.drop (x+5) := by
  have hl : 5 ≤ (buf.drop x).length := by simp; omega
  have hd : (buf.drop x).drop 5 = buf.drop (x+5) := by rw [List.drop_drop]
  unfold bufferRead
  rw [if_pos h]
  rcases hh : buf.drop x with _ | ⟨b0, _ | ⟨b1, _ | ⟨b2, _ | ⟨b3, _ | ⟨b4, r⟩⟩⟩⟩⟩ <;> rw [hh] at hl hd <;> simp at hl hd
  exact ⟨b0, b1, b2, b3, b4, rfl, by rw [← hd]⟩

/-- A read beyond the end of the buffer. -/
theorem bufferRead_none {α : Type} (buf : List α) (x n : Nat) (h : ¬ x + n ≤ buf.length) : bufferRead buf x n = none := by
  unfold bufferRead; rw [if_neg h]

/-- `decode` of a chunk and the rest (42_decode.md R169). -/
theorem decodeFrom_succ (t : List Nat) (k n) : decodeFrom t k (n+1) = match bufferRead t (5 * k) 5 with
    | some [u0, u1, u2, u3, u4] =>
      (match decChunk ⟨u0, u1, u2, u3, u4⟩ with
      | .fail c => .raises c (5 * k)
      | .ok v =>
        match decodeFrom t (k + 1) n with
        | .returns out => .returns (bytesBe v ++ out)
        | .raises c p => .raises c p
        | .bufferTooShort => .bufferTooShort)
    | _ => .bufferTooShort := rfl

/-- `encode` of a chunk and the rest (41_encode.md R146). -/
theorem encodeFrom_succ (t : List Byte) (k n) : encodeFrom t k (n+1) = match bufferRead t (4 * k) 4 with
    | some [b0, b1, b2, b3] =>
      (match encodeFrom t (k + 1) n with
        | .returns out => .returns (outUnits .enc (encChunk (be32 b0 b1 b2 b3)) ++ out)
        | .raises c p => .raises c p
        | .bufferTooShort => .bufferTooShort)
    | _ => .bufferTooShort := rfl

/-- `n` chunks and then `m`. -/
theorem decodeFrom_append (t : List Nat) (n m k : Nat) : decodeFrom t k (n + m) = match decodeFrom t k n with
   | .returns o => (match decodeFrom t (k+n) m with | .returns o2 => .returns (o ++ o2) | .raises c p => .raises c p | .bufferTooShort => .bufferTooShort)
   | .raises c p => .raises c p | .bufferTooShort => .bufferTooShort := by
  induction n generalizing k with
  | zero => simp [decodeFrom]; cases decodeFrom t k m <;> simp
  | succ n ih =>
    rw [show n + 1 + m = (n+m) + 1 by omega]
    rw [decodeFrom_succ, decodeFrom_succ]
    split
    · split
      · rfl
      · rw [ih (k+1), show k + 1 + n = k + (n+1) by omega]
        cases decodeFrom t (k+1) n with
        | returns o => cases decodeFrom t (k + (n+1)) m <;> simp
        | raises => simp
        | bufferTooShort => simp
    · simp

/-- `n` chunks and then `m`. -/
theorem encodeFrom_append (t : List Byte) (n m k : Nat) : encodeFrom t k (n + m) = match encodeFrom t k n with
   | .returns o => (match encodeFrom t (k+n) m with | .returns o2 => .returns (o ++ o2) | .raises c p => .raises c p | .bufferTooShort => .bufferTooShort)
   | .raises c p => .raises c p | .bufferTooShort => .bufferTooShort := by
  induction n generalizing k with
  | zero => simp [encodeFrom]; cases encodeFrom t k m <;> simp
  | succ n ih =>
    rw [show n + 1 + m = (n+m) + 1 by omega]
    rw [encodeFrom_succ, encodeFrom_succ]
    split
    · rw [ih (k+1), show k + 1 + n = k + (n+1) by omega]
      cases encodeFrom t (k+1) n with
      | returns o => cases encodeFrom t (k + (n+1)) m <;> simp
      | raises => simp
      | bufferTooShort => simp
    · simp

/-- Chunks behind a buffer of `j` whole chunks. -/
theorem decodeFrom_shift (a b : List Nat) (j k n : Nat) (h : a.length = 5 * j) :
    decodeFrom (a ++ b) (j + k) n = match decodeFrom b k n with
   | .returns o => .returns o | .raises c p => .raises c (p + 5 * j) | .bufferTooShort => .bufferTooShort := by
  induction n generalizing k with
  | zero => simp [decodeFrom]
  | succ n ih =>
    have hr : bufferRead (a ++ b) (5 * (j + k)) 5 = bufferRead b (5*k) 5 := by
      unfold bufferRead
      rw [List.drop_append, List.drop_eq_nil_of_le (by omega), List.nil_append, List.length_append,
          show 5 * (j+k) - a.length = 5 * k by omega]
      by_cases hc : 5 * k + 5 ≤ b.length
      · rw [if_pos hc, if_pos (by omega)]
      · rw [if_neg hc, if_neg (by omega)]
    unfold decodeFrom
    rw [hr]
    split
    · split
      · simp; omega
      · rw [show j + k + 1 = j + (k+1) by omega, ih (k+1)]
        cases decodeFrom b (k+1) n <;> simp
    · rfl

/-- Chunks behind a buffer of `j` whole chunks. -/
theorem encodeFrom_shift (a b : List Byte) (j k n : Nat) (h : a.length = 4 * j) :
    encodeFrom (a ++ b) (j + k) n = encodeFrom b k n := by
  induction n generalizing k with
  | zero => simp [encodeFrom]
  | succ n ih =>
    have hr : bufferRead (a ++ b) (4 * (j + k)) 4 = bufferRead b (4*k) 4 := by
      unfold bufferRead
      rw [List.drop_append, List.drop_eq_nil_of_le (by omega), List.nil_append, List.length_append,
          show 4 * (j+k) - a.length = 4 * k by omega]
      by_cases hc : 4 * k + 4 ≤ b.length
      · rw [if_pos hc, if_pos (by omega)]
      · rw [if_neg hc, if_neg (by omega)]
    unfold encodeFrom
    rw [hr]
    split
    · rw [show j + k + 1 = j + (k+1) by omega, ih (k+1)]
    · rfl

/-- What stands behind the chunks read plays no part. -/
theorem decodeFrom_prefix (a b : List Nat) (k n : Nat) (h : 5 * (k + n) ≤ a.length) :
    decodeFrom (a ++ b) k n = decodeFrom a k n := by
  induction n generalizing k with
  | zero => simp [decodeFrom]
  | succ n ih =>
    have hr : bufferRead (a ++ b) (5 * k) 5 = bufferRead a (5*k) 5 := by
      unfold bufferRead
      rw [List.drop_append_of_le_length (by omega), List.take_append_of_le_length (by simp; omega),
          if_pos (by rw [List.length_append]; omega), if_pos (by omega)]
    unfold decodeFrom
    rw [hr]
    split
    · rw [ih (k+1) (by omega)]
    · rfl

/-- What stands behind the chunks read plays no part. -/
theorem encodeFrom_prefix (a b : List Byte) (k n : Nat) (h : 4 * (k + n) ≤ a.length) :
    encodeFrom (a ++ b) k n = encodeFrom a k n := by
  induction n generalizing k with
  | zero => simp [encodeFrom]
  | succ n ih =>
    have hr : bufferRead (a ++ b) (4 * k) 4 = bufferRead a (4*k) 4 := by
      unfold bufferRead
      rw [List.drop_append_of_le_length (by omega), List.take_append_of_le_length (by simp; omega),
          if_pos (by rw [List.length_append]; omega), if_pos (by omega)]
    unfold encodeFrom
    rw [hr]
    split
    · rw [ih (k+1) (by omega)]
    · rfl

/-- The length of what is returned, and of what was read. -/
theorem encodeFrom_returns (t : List Byte) (n k o) (h : encodeFrom t k n = .returns o) : o.length = 5 * n ∧
    (n = 0 ∨ 4 * (k + n) ≤ t.length) := by
  induction n generalizing k o with
  | zero => simp [encodeFrom] at h; subst h; simp
  | succ n ih =>
    unfold encodeFrom at h
    split at h
    · next b0 b1 b2 b3 hr =>
      cases hh : encodeFrom t (k+1) n with
      | returns o' =>
        rw [hh] at h; cases h
        have := ih (k+1) o' hh
        have hlen : 4 * k + 4 ≤ t.length := by by_contra hc; rw [bufferRead_none _ _ _ hc] at hr; cases hr
        refine ⟨?_, .inr (by omega)⟩
        rw [List.length_append, this.1, outUnits_length]; simp [unitsPerOutBeat]; omega
      | raises => rw [hh] at h; cases h
      | bufferTooShort => rw [hh] at h; cases h
    · cases h

/-- The length of what is returned, and of what was read. -/
theorem decodeFrom_returns (t : List Nat) (n k o) (h : decodeFrom t k n = .returns o) : o.length = 4 * n ∧
    (n = 0 ∨ 5 * (k + n) ≤ t.length) := by
  induction n generalizing k o with
  | zero => simp [decodeFrom] at h; subst h; simp
  | succ n ih =>
    unfold decodeFrom at h
    split at h
    · next b0 b1 b2 b3 b4 hr =>
      split at h
      · cases h
      · next v hv =>
        cases hh : decodeFrom t (k+1) n with
        | returns o' =>
          rw [hh] at h; cases h
          have := ih (k+1) o' hh
          have hlen : 5 * k + 5 ≤ t.length := by by_contra hc; rw [bufferRead_none _ _ _ hc] at hr; cases hr
          refine ⟨?_, .inr (by omega)⟩
          rw [List.length_append, this.1]; simp [bytesBe]; omega
        | raises => rw [hh] at h; cases h
        | bufferTooShort => rw [hh] at h; cases h
    · cases h

end Sys2Proof.Machine
end

