-- ==== Sys2Proof/Laws/State.lean ====
section
/-! SUPPORT. One lemma per field per update of State, so that no proof unfolds a record update. -/

namespace Sys2Proof.Machine

@[simp] theorem raiseInvalidArgument_par (c : Cause) (p : BitVec 32) (s : State) : (raiseInvalidArgument c p s).par = s.par := rfl
@[simp] theorem raiseInvalidArgument_phase (c : Cause) (p : BitVec 32) (s : State) : (raiseInvalidArgument c p s).phase = s.phase := rfl
@[simp] theorem raiseInvalidArgument_op (c : Cause) (p : BitVec 32) (s : State) : (raiseInvalidArgument c p s).op = s.op := rfl
@[simp] theorem raiseInvalidArgument_size (c : Cause) (p : BitVec 32) (s : State) : (raiseInvalidArgument c p s).size = s.size := rfl
@[simp] theorem raiseInvalidArgument_len (c : Cause) (p : BitVec 32) (s : State) : (raiseInvalidArgument c p s).len = s.len := rfl
@[simp] theorem raiseInvalidArgument_total (c : Cause) (p : BitVec 32) (s : State) : (raiseInvalidArgument c p s).total = s.total := rfl
@[simp] theorem raiseInvalidArgument_idxIn (c : Cause) (p : BitVec 32) (s : State) : (raiseInvalidArgument c p s).idxIn = s.idxIn := rfl
@[simp] theorem raiseInvalidArgument_idxOut (c : Cause) (p : BitVec 32) (s : State) : (raiseInvalidArgument c p s).idxOut = s.idxOut := rfl
@[simp] theorem raiseInvalidArgument_fail (c : Cause) (p : BitVec 32) (s : State) : (raiseInvalidArgument c p s).fail = true := rfl
@[simp] theorem raiseInvalidArgument_cause (c : Cause) (p : BitVec 32) (s : State) : (raiseInvalidArgument c p s).cause = c := rfl
@[simp] theorem raiseInvalidArgument_pos (c : Cause) (p : BitVec 32) (s : State) : (raiseInvalidArgument c p s).pos = p := rfl
@[simp] theorem raiseInvalidArgument_q (c : Cause) (p : BitVec 32) (s : State) : (raiseInvalidArgument c p s).q = s.q := rfl
@[simp] theorem raiseInvalidArgument_outUp (c : Cause) (p : BitVec 32) (s : State) : (raiseInvalidArgument c p s).outUp = s.outUp := rfl
@[simp] theorem raiseInvalidArgument_cmds (c : Cause) (p : BitVec 32) (s : State) : (raiseInvalidArgument c p s).cmds = s.cmds := rfl
@[simp] theorem raiseInvalidArgument_ins (c : Cause) (p : BitVec 32) (s : State) : (raiseInvalidArgument c p s).ins = s.ins := rfl
@[simp] theorem raiseInvalidArgument_out (c : Cause) (p : BitVec 32) (s : State) : (raiseInvalidArgument c p s).out = s.out := rfl
@[simp] theorem raiseInvalidArgument_receipts (c : Cause) (p : BitVec 32) (s : State) : (raiseInvalidArgument c p s).receipts = s.receipts := rfl
@[simp] theorem raiseInvalidArgument_edges (c : Cause) (p : BitVec 32) (s : State) : (raiseInvalidArgument c p s).edges = s.edges := rfl

@[simp] theorem deliverResult_par (s : State) : (deliverResult s).par = s.par := rfl
@[simp] theorem deliverResult_phase (s : State) : (deliverResult s).phase = .idle := rfl
@[simp] theorem deliverResult_op (s : State) : (deliverResult s).op = s.op := rfl
@[simp] theorem deliverResult_size (s : State) : (deliverResult s).size = s.size := rfl
@[simp] theorem deliverResult_len (s : State) : (deliverResult s).len = s.len := rfl
@[simp] theorem deliverResult_total (s : State) : (deliverResult s).total = s.total := rfl
@[simp] theorem deliverResult_idxIn (s : State) : (deliverResult s).idxIn = s.idxIn := rfl
@[simp] theorem deliverResult_idxOut (s : State) : (deliverResult s).idxOut = s.idxOut := rfl
@[simp] theorem deliverResult_fail (s : State) : (deliverResult s).fail = s.fail := rfl
@[simp] theorem deliverResult_cause (s : State) : (deliverResult s).cause = s.cause := rfl
@[simp] theorem deliverResult_pos (s : State) : (deliverResult s).pos = s.pos := rfl
@[simp] theorem deliverResult_q (s : State) : (deliverResult s).q = s.q := rfl
@[simp] theorem deliverResult_outUp (s : State) : (deliverResult s).outUp = s.outUp := rfl
@[simp] theorem deliverResult_cmds (s : State) : (deliverResult s).cmds = s.cmds := rfl
@[simp] theorem deliverResult_ins (s : State) : (deliverResult s).ins = s.ins := rfl
@[simp] theorem deliverResult_out (s : State) : (deliverResult s).out = [] := rfl
@[simp] theorem deliverResult_receipts (s : State) : (deliverResult s).receipts = s.receipts ++ [⟨s.result, if s.err then [] else s.out⟩] := rfl
@[simp] theorem deliverResult_edges (s : State) : (deliverResult s).edges = s.edges := rfl

@[simp] theorem loadCommand_par (o : Op) (z : BitVec 32) (l : BitVec 31) (s : State) : (loadCommand o z l s).par = s.par := rfl
@[simp] theorem loadCommand_phase (o : Op) (z : BitVec 32) (l : BitVec 31) (s : State) : (loadCommand o z l s).phase = .run := rfl
@[simp] theorem loadCommand_op (o : Op) (z : BitVec 32) (l : BitVec 31) (s : State) : (loadCommand o z l s).op = o := rfl
@[simp] theorem loadCommand_size (o : Op) (z : BitVec 32) (l : BitVec 31) (s : State) : (loadCommand o z l s).size = z := rfl
@[simp] theorem loadCommand_len (o : Op) (z : BitVec 32) (l : BitVec 31) (s : State) : (loadCommand o z l s).len = l := rfl
@[simp] theorem loadCommand_total (o : Op) (z : BitVec 32) (l : BitVec 31) (s : State) : (loadCommand o z l s).total = 0 := rfl
@[simp] theorem loadCommand_idxIn (o : Op) (z : BitVec 32) (l : BitVec 31) (s : State) : (loadCommand o z l s).idxIn = 0 := rfl
@[simp] theorem loadCommand_idxOut (o : Op) (z : BitVec 32) (l : BitVec 31) (s : State) : (loadCommand o z l s).idxOut = 0 := rfl
@[simp] theorem loadCommand_fail (o : Op) (z : BitVec 32) (l : BitVec 31) (s : State) : (loadCommand o z l s).fail = false := rfl
@[simp] theorem loadCommand_cause (o : Op) (z : BitVec 32) (l : BitVec 31) (s : State) : (loadCommand o z l s).cause = .none := rfl
@[simp] theorem loadCommand_pos (o : Op) (z : BitVec 32) (l : BitVec 31) (s : State) : (loadCommand o z l s).pos = 0 := rfl
@[simp] theorem loadCommand_q (o : Op) (z : BitVec 32) (l : BitVec 31) (s : State) : (loadCommand o z l s).q = [] := rfl
@[simp] theorem loadCommand_outUp (o : Op) (z : BitVec 32) (l : BitVec 31) (s : State) : (loadCommand o z l s).outUp = false := rfl
@[simp] theorem loadCommand_cmds (o : Op) (z : BitVec 32) (l : BitVec 31) (s : State) : (loadCommand o z l s).cmds = s.cmds.tail := rfl
@[simp] theorem loadCommand_ins (o : Op) (z : BitVec 32) (l : BitVec 31) (s : State) : (loadCommand o z l s).ins = s.ins := rfl
@[simp] theorem loadCommand_out (o : Op) (z : BitVec 32) (l : BitVec 31) (s : State) : (loadCommand o z l s).out = s.out := rfl
@[simp] theorem loadCommand_receipts (o : Op) (z : BitVec 32) (l : BitVec 31) (s : State) : (loadCommand o z l s).receipts = s.receipts := rfl
@[simp] theorem loadCommand_edges (o : Op) (z : BitVec 32) (l : BitVec 31) (s : State) : (loadCommand o z l s).edges = s.edges := rfl

@[simp] theorem pushQ_par (b : OutBeat) (s : State) : (pushQ b s).par = s.par := rfl
@[simp] theorem pushQ_phase (b : OutBeat) (s : State) : (pushQ b s).phase = s.phase := rfl
@[simp] theorem pushQ_op (b : OutBeat) (s : State) : (pushQ b s).op = s.op := rfl
@[simp] theorem pushQ_size (b : OutBeat) (s : State) : (pushQ b s).size = s.size := rfl
@[simp] theorem pushQ_len (b : OutBeat) (s : State) : (pushQ b s).len = s.len := rfl
@[simp] theorem pushQ_total (b : OutBeat) (s : State) : (pushQ b s).total = s.total := rfl
@[simp] theorem pushQ_idxIn (b : OutBeat) (s : State) : (pushQ b s).idxIn = s.idxIn := rfl
@[simp] theorem pushQ_idxOut (b : OutBeat) (s : State) : (pushQ b s).idxOut = s.idxOut := rfl
@[simp] theorem pushQ_fail (b : OutBeat) (s : State) : (pushQ b s).fail = s.fail := rfl
@[simp] theorem pushQ_cause (b : OutBeat) (s : State) : (pushQ b s).cause = s.cause := rfl
@[simp] theorem pushQ_pos (b : OutBeat) (s : State) : (pushQ b s).pos = s.pos := rfl
@[simp] theorem pushQ_q (b : OutBeat) (s : State) : (pushQ b s).q = s.q ++ [b] := rfl
@[simp] theorem pushQ_outUp (b : OutBeat) (s : State) : (pushQ b s).outUp = s.outUp := rfl
@[simp] theorem pushQ_cmds (b : OutBeat) (s : State) : (pushQ b s).cmds = s.cmds := rfl
@[simp] theorem pushQ_ins (b : OutBeat) (s : State) : (pushQ b s).ins = s.ins := rfl
@[simp] theorem pushQ_out (b : OutBeat) (s : State) : (pushQ b s).out = s.out := rfl
@[simp] theorem pushQ_receipts (b : OutBeat) (s : State) : (pushQ b s).receipts = s.receipts := rfl
@[simp] theorem pushQ_edges (b : OutBeat) (s : State) : (pushQ b s).edges = s.edges := rfl

@[simp] theorem takeBeat_par (s : State) : (takeBeat s).par = s.par := rfl
@[simp] theorem takeBeat_phase (s : State) : (takeBeat s).phase = s.phase := rfl
@[simp] theorem takeBeat_op (s : State) : (takeBeat s).op = s.op := rfl
@[simp] theorem takeBeat_size (s : State) : (takeBeat s).size = s.size := rfl
@[simp] theorem takeBeat_len (s : State) : (takeBeat s).len = s.len := rfl
@[simp] theorem takeBeat_total (s : State) : (takeBeat s).total = s.total := rfl
@[simp] theorem takeBeat_idxIn (s : State) : (takeBeat s).idxIn = s.idxIn + 1 := rfl
@[simp] theorem takeBeat_idxOut (s : State) : (takeBeat s).idxOut = s.idxOut := rfl
@[simp] theorem takeBeat_fail (s : State) : (takeBeat s).fail = s.fail := rfl
@[simp] theorem takeBeat_cause (s : State) : (takeBeat s).cause = s.cause := rfl
@[simp] theorem takeBeat_pos (s : State) : (takeBeat s).pos = s.pos := rfl
@[simp] theorem takeBeat_q (s : State) : (takeBeat s).q = s.q := rfl
@[simp] theorem takeBeat_outUp (s : State) : (takeBeat s).outUp = s.outUp := rfl
@[simp] theorem takeBeat_cmds (s : State) : (takeBeat s).cmds = s.cmds := rfl
@[simp] theorem takeBeat_ins (s : State) : (takeBeat s).ins = s.ins.tail := rfl
@[simp] theorem takeBeat_out (s : State) : (takeBeat s).out = s.out := rfl
@[simp] theorem takeBeat_receipts (s : State) : (takeBeat s).receipts = s.receipts := rfl
@[simp] theorem takeBeat_edges (s : State) : (takeBeat s).edges = s.edges := rfl

@[simp] theorem failChunk_par (c : Cause) (k : BitVec 32) (s : State) : (failChunk c k s).par = s.par := rfl
@[simp] theorem failChunk_phase (c : Cause) (k : BitVec 32) (s : State) : (failChunk c k s).phase = s.phase := rfl
@[simp] theorem failChunk_op (c : Cause) (k : BitVec 32) (s : State) : (failChunk c k s).op = s.op := rfl
@[simp] theorem failChunk_size (c : Cause) (k : BitVec 32) (s : State) : (failChunk c k s).size = s.size := rfl
@[simp] theorem failChunk_len (c : Cause) (k : BitVec 32) (s : State) : (failChunk c k s).len = s.len := rfl
@[simp] theorem failChunk_total (c : Cause) (k : BitVec 32) (s : State) : (failChunk c k s).total = s.total := rfl
@[simp] theorem failChunk_idxIn (c : Cause) (k : BitVec 32) (s : State) : (failChunk c k s).idxIn = s.idxIn := rfl
@[simp] theorem failChunk_idxOut (c : Cause) (k : BitVec 32) (s : State) : (failChunk c k s).idxOut = s.idxOut := rfl
@[simp] theorem failChunk_fail (c : Cause) (k : BitVec 32) (s : State) : (failChunk c k s).fail = true := rfl
@[simp] theorem failChunk_cause (c : Cause) (k : BitVec 32) (s : State) : (failChunk c k s).cause = c := rfl
@[simp] theorem failChunk_pos (c : Cause) (k : BitVec 32) (s : State) : (failChunk c k s).pos = 5#32 * k := rfl
@[simp] theorem failChunk_q (c : Cause) (k : BitVec 32) (s : State) : (failChunk c k s).q = s.q := rfl
@[simp] theorem failChunk_outUp (c : Cause) (k : BitVec 32) (s : State) : (failChunk c k s).outUp = s.outUp := rfl
@[simp] theorem failChunk_cmds (c : Cause) (k : BitVec 32) (s : State) : (failChunk c k s).cmds = s.cmds := rfl
@[simp] theorem failChunk_ins (c : Cause) (k : BitVec 32) (s : State) : (failChunk c k s).ins = s.ins := rfl
@[simp] theorem failChunk_out (c : Cause) (k : BitVec 32) (s : State) : (failChunk c k s).out = s.out := rfl
@[simp] theorem failChunk_receipts (c : Cause) (k : BitVec 32) (s : State) : (failChunk c k s).receipts = s.receipts := rfl
@[simp] theorem failChunk_edges (c : Cause) (k : BitVec 32) (s : State) : (failChunk c k s).edges = s.edges := rfl

@[simp] theorem holdOut_par (s : State) : (holdOut s).par = s.par := rfl
@[simp] theorem holdOut_phase (s : State) : (holdOut s).phase = s.phase := rfl
@[simp] theorem holdOut_op (s : State) : (holdOut s).op = s.op := rfl
@[simp] theorem holdOut_size (s : State) : (holdOut s).size = s.size := rfl
@[simp] theorem holdOut_len (s : State) : (holdOut s).len = s.len := rfl
@[simp] theorem holdOut_total (s : State) : (holdOut s).total = s.total := rfl
@[simp] theorem holdOut_idxIn (s : State) : (holdOut s).idxIn = s.idxIn := rfl
@[simp] theorem holdOut_idxOut (s : State) : (holdOut s).idxOut = s.idxOut := rfl
@[simp] theorem holdOut_fail (s : State) : (holdOut s).fail = s.fail := rfl
@[simp] theorem holdOut_cause (s : State) : (holdOut s).cause = s.cause := rfl
@[simp] theorem holdOut_pos (s : State) : (holdOut s).pos = s.pos := rfl
@[simp] theorem holdOut_q (s : State) : (holdOut s).q = s.q := rfl
@[simp] theorem holdOut_outUp (s : State) : (holdOut s).outUp = true := rfl
@[simp] theorem holdOut_cmds (s : State) : (holdOut s).cmds = s.cmds := rfl
@[simp] theorem holdOut_ins (s : State) : (holdOut s).ins = s.ins := rfl
@[simp] theorem holdOut_out (s : State) : (holdOut s).out = s.out := rfl
@[simp] theorem holdOut_receipts (s : State) : (holdOut s).receipts = s.receipts := rfl
@[simp] theorem holdOut_edges (s : State) : (holdOut s).edges = s.edges := rfl

@[simp] theorem finish_par (s : State) : (finish s).par = s.par := rfl
@[simp] theorem finish_phase (s : State) : (finish s).phase = .result := rfl
@[simp] theorem finish_op (s : State) : (finish s).op = s.op := rfl
@[simp] theorem finish_size (s : State) : (finish s).size = s.size := rfl
@[simp] theorem finish_len (s : State) : (finish s).len = s.len := rfl
@[simp] theorem finish_total (s : State) : (finish s).total = s.total := rfl
@[simp] theorem finish_idxIn (s : State) : (finish s).idxIn = s.idxIn := rfl
@[simp] theorem finish_idxOut (s : State) : (finish s).idxOut = s.idxOut := rfl
@[simp] theorem finish_fail (s : State) : (finish s).fail = s.fail := rfl
@[simp] theorem finish_cause (s : State) : (finish s).cause = s.cause := rfl
@[simp] theorem finish_pos (s : State) : (finish s).pos = s.pos := rfl
@[simp] theorem finish_q (s : State) : (finish s).q = s.q := rfl
@[simp] theorem finish_outUp (s : State) : (finish s).outUp = s.outUp := rfl
@[simp] theorem finish_cmds (s : State) : (finish s).cmds = s.cmds := rfl
@[simp] theorem finish_ins (s : State) : (finish s).ins = s.ins := rfl
@[simp] theorem finish_out (s : State) : (finish s).out = s.out := rfl
@[simp] theorem finish_receipts (s : State) : (finish s).receipts = s.receipts := rfl
@[simp] theorem finish_edges (s : State) : (finish s).edges = s.edges := rfl

@[simp] theorem resetBlock_par (s : State) : (resetBlock s).par = s.par := rfl
@[simp] theorem resetBlock_phase (s : State) : (resetBlock s).phase = .idle := rfl
@[simp] theorem resetBlock_op (s : State) : (resetBlock s).op = .enc := rfl
@[simp] theorem resetBlock_size (s : State) : (resetBlock s).size = 0 := rfl
@[simp] theorem resetBlock_len (s : State) : (resetBlock s).len = 0 := rfl
@[simp] theorem resetBlock_total (s : State) : (resetBlock s).total = 0 := rfl
@[simp] theorem resetBlock_idxIn (s : State) : (resetBlock s).idxIn = 0 := rfl
@[simp] theorem resetBlock_idxOut (s : State) : (resetBlock s).idxOut = 0 := rfl
@[simp] theorem resetBlock_fail (s : State) : (resetBlock s).fail = false := rfl
@[simp] theorem resetBlock_cause (s : State) : (resetBlock s).cause = .none := rfl
@[simp] theorem resetBlock_pos (s : State) : (resetBlock s).pos = 0 := rfl
@[simp] theorem resetBlock_q (s : State) : (resetBlock s).q = [] := rfl
@[simp] theorem resetBlock_outUp (s : State) : (resetBlock s).outUp = false := rfl
@[simp] theorem resetBlock_cmds (s : State) : (resetBlock s).cmds = s.cmds := rfl
@[simp] theorem resetBlock_ins (s : State) : (resetBlock s).ins = s.ins := rfl
@[simp] theorem resetBlock_out (s : State) : (resetBlock s).out = [] := rfl
@[simp] theorem resetBlock_receipts (s : State) : (resetBlock s).receipts = s.receipts := rfl
@[simp] theorem resetBlock_edges (s : State) : (resetBlock s).edges = s.edges := rfl

@[simp] theorem withdrawOffers_par (s : State) : (withdrawOffers s).par = s.par := rfl
@[simp] theorem withdrawOffers_phase (s : State) : (withdrawOffers s).phase = s.phase := rfl
@[simp] theorem withdrawOffers_op (s : State) : (withdrawOffers s).op = s.op := rfl
@[simp] theorem withdrawOffers_size (s : State) : (withdrawOffers s).size = s.size := rfl
@[simp] theorem withdrawOffers_len (s : State) : (withdrawOffers s).len = s.len := rfl
@[simp] theorem withdrawOffers_total (s : State) : (withdrawOffers s).total = s.total := rfl
@[simp] theorem withdrawOffers_idxIn (s : State) : (withdrawOffers s).idxIn = s.idxIn := rfl
@[simp] theorem withdrawOffers_idxOut (s : State) : (withdrawOffers s).idxOut = s.idxOut := rfl
@[simp] theorem withdrawOffers_fail (s : State) : (withdrawOffers s).fail = s.fail := rfl
@[simp] theorem withdrawOffers_cause (s : State) : (withdrawOffers s).cause = s.cause := rfl
@[simp] theorem withdrawOffers_pos (s : State) : (withdrawOffers s).pos = s.pos := rfl
@[simp] theorem withdrawOffers_q (s : State) : (withdrawOffers s).q = s.q := rfl
@[simp] theorem withdrawOffers_outUp (s : State) : (withdrawOffers s).outUp = s.outUp := rfl
@[simp] theorem withdrawOffers_cmds (s : State) : (withdrawOffers s).cmds = [] := rfl
@[simp] theorem withdrawOffers_ins (s : State) : (withdrawOffers s).ins = [] := rfl
@[simp] theorem withdrawOffers_out (s : State) : (withdrawOffers s).out = s.out := rfl
@[simp] theorem withdrawOffers_receipts (s : State) : (withdrawOffers s).receipts = s.receipts := rfl
@[simp] theorem withdrawOffers_edges (s : State) : (withdrawOffers s).edges = s.edges := rfl

@[simp] theorem arrive_par (s : State) : (arrive s).par = s.par := rfl
@[simp] theorem arrive_phase (s : State) : (arrive s).phase = s.phase := rfl
@[simp] theorem arrive_op (s : State) : (arrive s).op = s.op := rfl
@[simp] theorem arrive_size (s : State) : (arrive s).size = s.size := rfl
@[simp] theorem arrive_len (s : State) : (arrive s).len = s.len := rfl
@[simp] theorem arrive_total (s : State) : (arrive s).total = s.total := rfl
@[simp] theorem arrive_idxIn (s : State) : (arrive s).idxIn = s.idxIn := rfl
@[simp] theorem arrive_idxOut (s : State) : (arrive s).idxOut = s.idxOut := rfl
@[simp] theorem arrive_fail (s : State) : (arrive s).fail = s.fail := rfl
@[simp] theorem arrive_cause (s : State) : (arrive s).cause = s.cause := rfl
@[simp] theorem arrive_pos (s : State) : (arrive s).pos = s.pos := rfl
@[simp] theorem arrive_q (s : State) : (arrive s).q = s.q := rfl
@[simp] theorem arrive_outUp (s : State) : (arrive s).outUp = s.outUp := rfl
@[simp] theorem arrive_cmds (s : State) : (arrive s).cmds = s.cmds ++ s.edge.newCmd.toList := rfl
@[simp] theorem arrive_ins (s : State) : (arrive s).ins = s.ins ++ s.edge.newBeat.toList := rfl
@[simp] theorem arrive_out (s : State) : (arrive s).out = s.out := rfl
@[simp] theorem arrive_receipts (s : State) : (arrive s).receipts = s.receipts := rfl
@[simp] theorem arrive_edges (s : State) : (arrive s).edges = s.edges.tail := rfl

section
variable (c : Check) (s : State)

@[simp] theorem applyCheck_fail (h : s.fail = false) : (applyCheck c s).fail = c.fail := by
  unfold applyCheck; split <;> simp_all
@[simp] theorem applyCheck_total (h : s.total = 0) (hc : c.fail = true → c.total = 0) : (applyCheck c s).total = c.total := by
  unfold applyCheck; split <;> simp_all
@[simp] theorem applyCheck_cause (h : s.cause = .none) (hc : c.fail = false → c.cause = .none) :
    (applyCheck c s).cause = c.cause := by
  unfold applyCheck; split <;> simp_all
@[simp] theorem applyCheck_pos (h : s.pos = 0) : (applyCheck c s).pos = 0 := by
  unfold applyCheck; split <;> simp_all
@[simp] theorem applyCheck_par : (applyCheck c s).par = s.par := by unfold applyCheck; split <;> rfl
@[simp] theorem applyCheck_phase : (applyCheck c s).phase = s.phase := by unfold applyCheck; split <;> rfl
@[simp] theorem applyCheck_op : (applyCheck c s).op = s.op := by unfold applyCheck; split <;> rfl
@[simp] theorem applyCheck_size : (applyCheck c s).size = s.size := by unfold applyCheck; split <;> rfl
@[simp] theorem applyCheck_len : (applyCheck c s).len = s.len := by unfold applyCheck; split <;> rfl
@[simp] theorem applyCheck_idxIn : (applyCheck c s).idxIn = s.idxIn := by unfold applyCheck; split <;> rfl
@[simp] theorem applyCheck_idxOut : (applyCheck c s).idxOut = s.idxOut := by unfold applyCheck; split <;> rfl
@[simp] theorem applyCheck_q : (applyCheck c s).q = s.q := by unfold applyCheck; split <;> rfl
@[simp] theorem applyCheck_outUp : (applyCheck c s).outUp = s.outUp := by unfold applyCheck; split <;> rfl
@[simp] theorem applyCheck_cmds : (applyCheck c s).cmds = s.cmds := by unfold applyCheck; split <;> rfl
@[simp] theorem applyCheck_ins : (applyCheck c s).ins = s.ins := by unfold applyCheck; split <;> rfl
@[simp] theorem applyCheck_out : (applyCheck c s).out = s.out := by unfold applyCheck; split <;> rfl
@[simp] theorem applyCheck_receipts : (applyCheck c s).receipts = s.receipts := by unfold applyCheck; split <;> rfl
@[simp] theorem applyCheck_edges : (applyCheck c s).edges = s.edges := by unfold applyCheck; split <;> rfl

end

section
variable (s : State)

theorem deliverOut_nil (h : s.q = []) : deliverOut s = s := by
  unfold deliverOut; rw [h]
theorem deliverOut_cons {b : OutBeat} {r : List OutBeat} (h : s.q = b :: r) : deliverOut s =
    { s with
      q := r
      outUp := false
      idxOut := s.idxOut + 1
      out := Memory.writeAll s.out (unitsPerOutBeat s.op * s.idxOut.toNat) (outUnits s.op b) } := by
  unfold deliverOut; rw [h]
@[simp] theorem deliverOut_par : (deliverOut s).par = s.par := by unfold deliverOut; split <;> rfl
@[simp] theorem deliverOut_phase : (deliverOut s).phase = s.phase := by unfold deliverOut; split <;> rfl
@[simp] theorem deliverOut_op : (deliverOut s).op = s.op := by unfold deliverOut; split <;> rfl
@[simp] theorem deliverOut_size : (deliverOut s).size = s.size := by unfold deliverOut; split <;> rfl
@[simp] theorem deliverOut_len : (deliverOut s).len = s.len := by unfold deliverOut; split <;> rfl
@[simp] theorem deliverOut_total : (deliverOut s).total = s.total := by unfold deliverOut; split <;> rfl
@[simp] theorem deliverOut_idxIn : (deliverOut s).idxIn = s.idxIn := by unfold deliverOut; split <;> rfl
@[simp] theorem deliverOut_fail : (deliverOut s).fail = s.fail := by unfold deliverOut; split <;> rfl
@[simp] theorem deliverOut_cause : (deliverOut s).cause = s.cause := by unfold deliverOut; split <;> rfl
@[simp] theorem deliverOut_pos : (deliverOut s).pos = s.pos := by unfold deliverOut; split <;> rfl
@[simp] theorem deliverOut_cmds : (deliverOut s).cmds = s.cmds := by unfold deliverOut; split <;> rfl
@[simp] theorem deliverOut_ins : (deliverOut s).ins = s.ins := by unfold deliverOut; split <;> rfl
@[simp] theorem deliverOut_receipts : (deliverOut s).receipts = s.receipts := by unfold deliverOut; split <;> rfl
@[simp] theorem deliverOut_edges : (deliverOut s).edges = s.edges := by unfold deliverOut; split <;> rfl

end

end Sys2Proof.Machine
end

