-- ==== Sys2Proof/Laws/Checks.lean ====
section
/-! SUPPORT. What the argument checks can answer (40_call_protocol.md R114), and the state a command leaves. -/

namespace Sys2Proof.Machine

/-- A failed check has no chunks, and a passed one no cause: `(1, cause, 0)` or `(0, 0, total)`. -/
def Check.Regular (c : Check) : Prop := (c.fail = true → c.total = 0) ∧ (c.fail = false → c.cause = .none)

theorem checkOf_regular (p : Params) (op : Op) (size : Int) (len : Nat) : (checkOf p op size len).Regular := by
  cases op <;> simp only [checkOf, encCheck, decCheck, valCheck, rsvCheck] <;> (repeat' split) <;>
    simp [Check.Regular, Check.fails, Check.passes]

/-- A failed check answers a cause of command acceptance (60_exceptions.md R220). -/
theorem checkOf_cause {p : Params} {op : Op} {size : Int} {len : Nat} (h : (checkOf p op size len).fail = true) :
    (checkOf p op size len).cause ≠ .none ∧ (checkOf p op size len).cause ≠ .badChar ∧
      (checkOf p op size len).cause ≠ .outOfRange := by
  revert h
  cases op <;> simp only [checkOf, encCheck, decCheck, valCheck, rsvCheck] <;> (repeat' split) <;>
    simp [Check.fails, Check.passes]

theorem divBy5_ofNat_le {n : Nat} (h : n < 2147483648) : (divBy5 (BitVec.ofNat 32 n)).toNat ≤ 429496729 := by
  simp only [divBy5, BitVec.toNat_udiv, BitVec.toNat_ofNat, Nat.reducePow, Nat.reduceMod]
  omega

/-- `TOTAL <= 429496729` (10_state.md R23). -/
theorem checkOf_total_le {p : Params} (hp : p.wf = true) (op : Op) (size : Int) (len : BitVec 31) :
    (checkOf p op size len.toNat).total.toNat ≤ 429496729 := by
  have hl := len.isLt
  have hs : p.maxSeqLen < 2147483648 := by simp [Params.wf] at hp; exact hp.1.2
  cases op <;> simp only [checkOf]
  · unfold encCheck maxInputLength
    split
    · simp [Check.fails]
    split
    · simp [Check.fails]
    split
    · simp [Check.fails]
    split
    · simp [Check.fails]
    simp only [Check.passes, BitVec.toNat_ofNat, Nat.shiftRight_eq_div_pow]
    omega
  · unfold decCheck
    split
    · simp [Check.fails]
    split
    · simp [Check.fails]
    split
    · simp [Check.fails]
    exact divBy5_ofNat_le (by omega)
  · unfold valCheck
    split
    · simp [Check.fails]
    exact divBy5_ofNat_le (by omega)
  · simp [rsvCheck, Check.fails]

/-- The state that CMD-ACCEPT leaves, whole (40_call_protocol.md R113). -/
theorem applyCheck_loadCommand {c : Check} (hc : c.Regular) (op : Op) (size : BitVec 32) (len : BitVec 31) (s : State) :
    applyCheck c (loadCommand op size len s) =
      { s with
        phase := .run, op := op, size := size, len := len, idxIn := 0, idxOut := 0, q := [], outUp := false, pos := 0
        fail := c.fail
        cause := c.cause
        total := c.total
        cmds := s.cmds.tail } := by
  obtain ⟨f, k, t⟩ := c
  cases f
  · have := hc.2 rfl
    simp only at this
    subst this
    rfl
  · have := hc.1 rfl
    simp only at this
    subst this
    rfl

end Sys2Proof.Machine
end

