-- ==== Sys2Proof/Laws/Memory.lean ====
section
/-! SUPPORT. The laws of memory: a read after a write, and the canonical form that every write keeps. -/

namespace Sys2Proof.Machine

/-- The addresses a memory lists, in order. -/
abbrev Memory.addresses (m : Memory) : List Nat := m.map Prod.fst

theorem Memory.wf_iff (m : Memory) : Memory.wf m = true ↔ (Memory.addresses m).Pairwise (· < ·) := by
  simp [Memory.wf]

theorem Memory.mem_addresses_write (m : Memory) (x : Nat) (v : Byte) (a : Nat) :
    a ∈ Memory.addresses (Memory.write m x v) ↔ a = x ∨ a ∈ Memory.addresses m := by
  induction m with
  | nil => simp [Memory.write]
  | cons c m ih =>
    obtain ⟨b, w⟩ := c
    simp only [Memory.write]
    split
    · simp
    · split
      · next h => subst h; simp
      · simp only [Memory.addresses, List.map_cons, List.mem_cons] at ih ⊢
        rw [ih]; tauto

/-- A read after a write: the written address reads the written unit, every other address reads as before. -/
theorem Memory.read_write (m : Memory) (x : Nat) (v : Byte) (a : Nat) :
    Memory.read (Memory.write m x v) a = if a = x then some v else Memory.read m a := by
  induction m with
  | nil => simp [Memory.write, Memory.read]
  | cons c m ih =>
    obtain ⟨b, w⟩ := c
    simp only [Memory.write]
    split
    · simp only [Memory.read]
    · split
      · next h => subst h; simp only [Memory.read]; split <;> rfl
      · simp only [Memory.read, ih]
        split
        · split
          · omega
          · rfl
        · rfl

/-- A write keeps the canonical form. -/
theorem Memory.write_wf (m : Memory) (x : Nat) (v : Byte) (h : Memory.wf m = true) :
    Memory.wf (Memory.write m x v) = true := by
  rw [Memory.wf_iff] at h ⊢
  induction m with
  | nil => simp [Memory.write]
  | cons c m ih =>
    obtain ⟨b, w⟩ := c
    simp only [Memory.addresses, List.map_cons, List.pairwise_cons] at h
    simp only [Memory.write]
    split
    · next hx =>
      simp only [Memory.addresses, List.map_cons, List.pairwise_cons, List.mem_cons]
      refine ⟨?_, h.1, h.2⟩
      rintro a (rfl | ha)
      · exact hx
      · exact lt_trans hx (h.1 a ha)
    · split
      · next hx => subst hx; simpa only [Memory.addresses, List.map_cons, List.pairwise_cons] using h
      · next h1 h2 =>
        simp only [Memory.addresses, List.map_cons, List.pairwise_cons]
        refine ⟨fun a ha => ?_, ih h.2⟩
        rcases (Memory.mem_addresses_write m x v a).1 ha with rfl | ha
        · omega
        · exact h.1 a ha

theorem Memory.writeAll_wf (vs : List Byte) (m : Memory) (x : Nat) (h : Memory.wf m = true) :
    Memory.wf (Memory.writeAll m x vs) = true := by
  induction vs generalizing m x with
  | nil => exact h
  | cons v vs ih => exact ih _ _ (Memory.write_wf m x v h)

/-- A read after a list of units is written: inside the list its unit, outside it as before. -/
theorem Memory.read_writeAll (vs : List Byte) (m : Memory) (x a : Nat) :
    Memory.read (Memory.writeAll m x vs) a =
      if x ≤ a ∧ a < x + vs.length then vs[a - x]? else Memory.read m a := by
  induction vs generalizing m x with
  | nil => simp [Memory.writeAll]
  | cons v vs ih =>
    simp only [Memory.writeAll, ih, Memory.read_write, List.length_cons]
    by_cases h1 : a = x
    · subst h1; simp
    · by_cases h2 : x + 1 ≤ a ∧ a < x + 1 + vs.length
      · have : a - x = (a - (x + 1)) + 1 := by omega
        rw [if_pos h2, if_pos (by omega), this, List.getElem?_cons_succ]
      · rw [if_neg h2, if_neg h1, if_neg (by omega)]

/-- A write above every listed address stands at the end. -/
theorem Memory.write_above (m : Memory) (x : Nat) (v : Byte) (h : ∀ a ∈ Memory.addresses m, a < x) :
    Memory.write m x v = m ++ [(x, v)] := by
  induction m with
  | nil => rfl
  | cons c m ih =>
    obtain ⟨b, w⟩ := c
    simp only [Memory.addresses, List.map_cons, List.mem_cons, forall_eq_or_imp] at h
    simp only [Memory.write, if_neg (show ¬ x < b by omega), if_neg (show ¬ x = b by omega), List.cons_append,
      ih h.2]

/-- A list written above every listed address stands at the end, in order: how OUT grows (20_memory.md R53). -/
theorem Memory.writeAll_above (vs : List Byte) (m : Memory) (x : Nat) (h : ∀ a ∈ Memory.addresses m, a < x) :
    Memory.writeAll m x vs = m ++ Memory.ofUnits x vs := by
  induction vs generalizing m x with
  | nil => simp [Memory.writeAll, Memory.ofUnits]
  | cons v vs ih =>
    rw [Memory.writeAll, Memory.write_above m x v h, ih, Memory.ofUnits, List.append_assoc]
    · rfl
    · intro a ha
      simp only [Memory.addresses, List.map_append, List.mem_append, List.map_cons, List.map_nil,
        List.mem_singleton] at ha
      rcases ha with ha | rfl
      · exact Nat.lt_succ_of_lt (h a ha)
      · omega

theorem Memory.addresses_ofUnits (vs : List Byte) (x : Nat) :
    Memory.addresses (Memory.ofUnits x vs) = List.range' x vs.length := by
  induction vs generalizing x with
  | nil => rfl
  | cons v vs ih =>
    simp only [Memory.ofUnits, Memory.addresses, List.map_cons, List.length_cons, List.range'_succ]
    exact congrArg _ (ih (x + 1))

theorem Memory.ofUnits_append (vs ws : List Byte) (x : Nat) :
    Memory.ofUnits x (vs ++ ws) = Memory.ofUnits x vs ++ Memory.ofUnits (x + vs.length) ws := by
  induction vs generalizing x with
  | nil => rfl
  | cons v vs ih =>
    simp only [List.cons_append, Memory.ofUnits, ih, List.length_cons]
    rw [show x + 1 + vs.length = x + (vs.length + 1) by omega]

end Sys2Proof.Machine
end

