-- ==== Sys2Proof/Laws/Step.lean ====
section
/-! SUPPORT. What each event can do, said once: the inversion lemmas of `exec`, `inAccept` and `step`. -/

namespace Sys2Proof.Machine

/-- Every instruction is the acceptance of its command under the checks of its operation (40_call_protocol.md R113, R114). -/
theorem exec_eq (i : Instr) (s : State) :
    exec i s = .next (acceptCommand i.op i.size i.len (checkOf s.par i.op) s) := by
  cases i <;> rfl

theorem acceptCommand_idle {s : State} (h : s.phase = .idle) (op : Op) (size : Int) (len : Nat)
    (check : Int → Nat → Check) : acceptCommand op size len check s =
      applyCheck (check (BitVec.ofInt 32 size).toInt (BitVec.ofNat 31 len).toNat)
        (loadCommand op (BitVec.ofInt 32 size) (BitVec.ofNat 31 len) s) := by
  simp only [acceptCommand, h]

theorem acceptCommand_busy {s : State} (h : s.phase ≠ .idle) (op : Op) (size : Int) (len : Nat)
    (check : Int → Nat → Check) : acceptCommand op size len check s = s := by
  unfold acceptCommand; split <;> simp_all

/-- What IN-ACCEPT can do (40_call_protocol.md R115; 41_encode.md R145, 42_decode.md R168, 43_isvalid.md R183). -/
inductive BeatCase (s t : State) : Prop where
  /-- No beat is on offer. -/
  | none (hins : s.ins = []) (ht : t = s)
  /-- An ENC beat: its output chunk is appended. -/
  | encoded (b : InBeat) (r : List InBeat) (hins : s.ins = b :: r) (hop : s.op = .enc)
      (ht : t = pushQ (encChunk (encInChunk b)) (takeBeat s))
  /-- A DEC beat that decodes: its output chunk is appended. -/
  | decoded (b : InBeat) (r : List InBeat) (v : Chunk) (hins : s.ins = b :: r) (hop : s.op = .dec) (hf : s.fail = false)
      (hc : decChunk (lanes5 s.par.charW b) = .ok v) (ht : t = pushQ (decOutBeat v) (takeBeat s))
  /-- A VAL beat that decodes: nothing but the counter moves. -/
  | valid (b : InBeat) (r : List InBeat) (v : Chunk) (hins : s.ins = b :: r) (hop : s.op = .val) (hf : s.fail = false)
      (hc : decChunk (lanes5 s.par.charW b) = .ok v) (ht : t = takeBeat s)
  /-- The first failing chunk of a DEC or VAL call. -/
  | failing (b : InBeat) (r : List InBeat) (c : Cause) (hins : s.ins = b :: r) (hop : s.op = .dec ∨ s.op = .val)
      (hf : s.fail = false) (hc : decChunk (lanes5 s.par.charW b) = .fail c) (ht : t = failChunk c s.idxIn (takeBeat s))
  /-- A beat of a failed DEC or VAL call: it is drained. -/
  | drained (b : InBeat) (r : List InBeat) (hins : s.ins = b :: r) (hop : s.op = .dec ∨ s.op = .val) (hf : s.fail = true)
      (ht : t = takeBeat s)

theorem inAccept_cases {s t : State} (h : inAccept s = .next t) : BeatCase s t := by
  unfold inAccept at h
  split at h
  · next hins => cases h; exact .none hins rfl
  · next b r hins =>
    split at h
    · next hop => cases h; exact .encoded b r hins hop rfl
    · next hop =>
      cases h
      cases hf : s.fail
      · cases hc : decChunk (lanes5 s.par.charW b) with
        | ok v => exact .decoded b r v hins hop hf hc (by simp [decBeat, hf, hc])
        | fail c => exact .failing b r c hins (.inl hop) hf hc (by simp [decBeat, hf, hc])
      · exact .drained b r hins (.inl hop) hf (by simp [decBeat, hf])
    · next hop =>
      cases h
      cases hf : s.fail
      · cases hc : decChunk (lanes5 s.par.charW b) with
        | ok v => exact .valid b r v hins hop hf hc (by simp [valBeat, hf, hc])
        | fail c => exact .failing b r c hins (.inr hop) hf hc (by simp [valBeat, hf, hc])
      · exact .drained b r hins (.inr hop) hf (by simp [valBeat, hf])
    · cases h

/-- The only causes a chunk fails with (42_decode.md R165). -/
theorem decChunk_fail {u : Units5} {c : Cause} (h : decChunk u = .fail c) : c = .badChar ∨ c = .outOfRange := by
  unfold decChunk at h
  split at h
  · cases h; exact .inl rfl
  · split at h
    · cases h; exact .inr rfl
    · cases h

/-- IN-ACCEPT stops only where `OP` has no beat rule. -/
theorem inAccept_next {s : State} (h : s.op ≠ .rsv3) : ∃ t, inAccept s = .next t := by
  unfold inAccept
  split
  · exact ⟨_, rfl⟩
  · split
    · exact ⟨_, rfl⟩
    · exact ⟨_, rfl⟩
    · exact ⟨_, rfl⟩
    · next hop => exact absurd hop h

/-- What one rising edge can do (40_call_protocol.md R112). -/
inductive StepCase (s t : State) : Prop where
  /-- `rst` is 1. -/
  | reset (hr : s.edge.rst = true) (ht : t = resetEvent s.edge (arrive s))
  /-- IDLE with no command on offer. -/
  | idleWait (hr : s.edge.rst = false) (hp : s.phase = .idle) (hc : (arrive s).cmds = []) (ht : t = arrive s)
  /-- CMD-ACCEPT. -/
  | command (w : CmdWord) (cs : List CmdWord) (hr : s.edge.rst = false) (hp : s.phase = .idle)
      (hc : (arrive s).cmds = w :: cs)
      (ht : t = applyCheck (checkOf s.par (decode w).op (BitVec.ofInt 32 (decode w).size).toInt
          (BitVec.ofNat 31 (decode w).len).toNat)
        (loadCommand (decode w).op (BitVec.ofInt 32 (decode w).size) (BitVec.ofNat 31 (decode w).len) (arrive s)))
  /-- FINISH is enabled and does not happen yet. -/
  | finWait (hr : s.edge.rst = false) (hp : s.phase = .run) (he : finishEnabled (arrive s) = true)
      (hh : s.edge.finHold = true) (ht : t = arrive s)
  /-- FINISH. -/
  | fin (hr : s.edge.rst = false) (hp : s.phase = .run) (he : finishEnabled (arrive s) = true)
      (hh : s.edge.finHold = false) (ht : t = finish (arrive s))
  /-- RUN: the input side, then the output side. -/
  | run (b : State) (hr : s.edge.rst = false) (hp : s.phase = .run) (he : finishEnabled (arrive s) = false)
      (hi : (inTransfers s.edge (arrive s) = true ∧ inAccept (arrive s) = .next b) ∨
        (inTransfers s.edge (arrive s) = false ∧ b = arrive s))
      (ht : t = outEvent s.edge (arrive s) b)
  /-- RESULT, and the host does not take the word. -/
  | resWait (hr : s.edge.rst = false) (hp : s.phase = .result) (hh : s.edge.resReady = false) (ht : t = arrive s)
  /-- RES-DELIVER. -/
  | deliver (hr : s.edge.rst = false) (hp : s.phase = .result) (hh : s.edge.resReady = true)
      (ht : t = deliverResult (arrive s))

theorem step_cases {s t : State} (h : step s = .next t) : StepCase s t := by
  unfold step edgeEvent at h
  split at h
  · next hr => cases h; exact .reset hr rfl
  · next hr =>
    have hr : s.edge.rst = false := by simpa using hr
    split at h
    · next hp =>
      have hp : s.phase = .idle := hp
      unfold idleEvent at h
      split at h
      · next hc => cases h; exact .idleWait hr hp hc rfl
      · next w cs hc =>
        rw [exec_eq, acceptCommand_idle (by simpa using hp)] at h
        cases h
        exact .command w cs hr hp hc rfl
    · next hp =>
      have hp : s.phase = .run := hp
      unfold runEvent at h
      split at h
      · next he =>
        cases h
        split
        · next hh => exact .finWait hr hp he hh rfl
        · next hh => exact .fin hr hp he (by simpa using hh) rfl
      · next he =>
        have he : finishEnabled (arrive s) = false := by simpa using he
        split at h
        · next b hb =>
          cases h
          by_cases hin : inTransfers s.edge (arrive s) = true
          · rw [if_pos hin] at hb; exact .run b hr hp he (.inl ⟨hin, hb⟩) rfl
          · rw [if_neg hin] at hb; cases hb; exact .run _ hr hp he (.inr ⟨by simpa using hin, rfl⟩) rfl
        · cases h
        · cases h
    · next hp =>
      have hp : s.phase = .result := hp
      cases h
      unfold resultEvent
      have hv : resTransfers s.edge (arrive s) = s.edge.resReady := by
        simp [resTransfers, resValid, hp, hr]
      rw [hv]
      split
      · next hh => exact .deliver hr hp hh rfl
      · next hh => exact .resWait hr hp (by simpa using hh) rfl

/-- What the output side of an edge in RUN does to the state `t` of its input side. -/
theorem outEvent_cases (e : Edge) (s t : State) :
    (outTransfers e s = true ∧ outEvent e s t = deliverOut t) ∨
      (outTransfers e s = false ∧ outValid e s = true ∧ outEvent e s t = holdOut t) ∨
      (outTransfers e s = false ∧ outValid e s = false ∧ outEvent e s t = t) := by
  unfold outEvent
  by_cases h1 : outTransfers e s = true
  · left; simp [h1]
  · by_cases h2 : outValid e s = true
    · right; left; simp [h1, h2]
    · right; right; simp [h1, h2]

theorem inTransfers_iff (e : Edge) (s : State) : inTransfers e s = true ↔
    s.phase = .run ∧ s.idxIn < s.total ∧ s.q.length < s.par.pipeDepth ∧ e.inHold = false ∧ e.rst = false ∧ s.ins ≠ [] := by
  simp [inTransfers, inReady, and_assoc]

theorem outTransfers_iff (e : Edge) (s : State) : outTransfers e s = true ↔
    s.q ≠ [] ∧ (s.outUp = true ∨ e.outHold = false) ∧ e.rst = false ∧ e.outReady = true := by
  simp [outTransfers, outValid, and_assoc]

theorem outValid_iff (e : Edge) (s : State) : outValid e s = true ↔
    s.q ≠ [] ∧ (s.outUp = true ∨ e.outHold = false) ∧ e.rst = false := by
  simp [outValid, and_assoc]

theorem finishEnabled_iff (s : State) : finishEnabled s = true ↔ s.phase = .run ∧ s.idxIn = s.total ∧ s.q = [] := by
  simp [finishEnabled, and_assoc]

/-- The next step of `withFetchWord` runs the word, in IDLE, with the word at the head of the command channel (log entry 9). -/
theorem step_withFetchWord (s : State) (nbits w : Nat) : step (s.withFetchWord nbits w) =
    exec (decode (BitVec.ofNat 65 w))
      { s with phase := .idle, q := [], outUp := false, cmds := BitVec.ofNat 65 w :: s.cmds } := by
  unfold step edgeEvent arrive State.edge State.withFetchWord
  cases he : s.edges <;> simp [Edge.willing, idleEvent]

end Sys2Proof.Machine
end

