-- ==== Sys2Proof/Laws/Invariant.lean ====
section
/-! SUPPORT. Every event keeps the invariant of Safety.lean, one lemma per event (40_call_protocol.md R112). -/

namespace Sys2Proof.Machine

/-- What is newly offered does not touch the command registers. -/
theorem check_arrive (s : State) : (arrive s).check = s.check := rfl

/-- What an edge samples (40_call_protocol.md R111) keeps the invariant. -/
theorem arrive_inv {s : State} (h : StateInv s) : StateInv (arrive s) := by
  constructor <;> simp only [arrive_par, arrive_phase, arrive_op, arrive_total, arrive_idxIn,
    arrive_idxOut, arrive_fail, arrive_cause, arrive_pos, arrive_q, arrive_outUp, arrive_out, check_arrive]
  exacts [h.parameters, h.delivered_le_consumed, h.consumed_le_total, h.total_bound, h.queue_bound, h.queue_only_in_run,
    h.shown_beat, h.result_after_beats, h.exact_while_ok, h.no_output, h.cause_iff_fail, h.pos_zero, h.pos_chunk,
    h.total_checked, h.failed_check, h.passed_check, h.out_cells, h.out_between_calls]

/-- The reset state (70_reset_and_hazards.md R251), with parameters in range. -/
theorem resetBlock_inv (s : State) (h : s.par.wf = true) : StateInv (resetBlock s) := by
  constructor <;> simp [h]

/-- An edge with `rst` (70_reset_and_hazards.md R250, R253). -/
theorem resetEvent_inv (e) (s : State) (h : s.par.wf = true) : StateInv (resetEvent e s) := by
  unfold resetEvent; split
  · have := resetBlock_inv s h
    exact ⟨this.parameters, this.delivered_le_consumed, this.consumed_le_total, this.total_bound, this.queue_bound,
      this.queue_only_in_run, this.shown_beat, this.result_after_beats, this.exact_while_ok, this.no_output,
      this.cause_iff_fail, this.pos_zero, this.pos_chunk, this.total_checked, this.failed_check, this.passed_check,
      this.out_cells, this.out_between_calls⟩
  · exact resetBlock_inv s h

/-- A counter below its largest value does not wrap (10_state.md R24). -/
theorem toNat_succ (x : BitVec 32) (h : x.toNat < 4294967295) : (x + 1).toNat = x.toNat + 1 := by
  rw [BitVec.toNat_add, show (1 : BitVec 32).toNat = 1 from rfl]; omega

/-- CMD-ACCEPT (40_call_protocol.md R113). -/
theorem acceptCommand_inv (s : State) (hp : s.par.wf = true) (ho : s.out = []) (op) (z : BitVec 32) (l : BitVec 31) :
   StateInv (applyCheck (checkOf s.par op z.toInt l.toNat) (loadCommand op z l s)) := by
  rw [applyCheck_loadCommand (checkOf_regular _ _ _ _)]
  have hc := @checkOf_cause s.par op z.toInt l.toNat
  have hk := checkOf_regular s.par op z.toInt l.toNat
  have ht := checkOf_total_le hp op z.toInt l
  constructor <;> simp only [State.check]
  · exact hp
  · simp
  · simp
  · exact ht
  · simp
  · simp
  · simp
  · simp
  · simp
  · simp
  · constructor
    · intro h; exact (hc h).1
    · intro h; by_contra h2; exact h (hk.2 (by simpa using h2))
  · simp
  · intro h
    have : ¬ (checkOf s.par op z.toInt l.toNat).fail = true := by
      intro hf; rcases h with h | h
      · exact (hc hf).2.1 h
      · exact (hc hf).2.2 h
    have := hk.2 (by simpa using this)
    rw [this] at h; simp at h
  · simp
  · intro _ h; exact ⟨h, trivial⟩
  · intro _ h; left; exact hk.2 h
  · intro _; simp [ho]
  · simp

/-- FINISH (40_call_protocol.md R117). -/
theorem finish_inv {s : State} (h : StateInv s) (hp : s.phase = .run) (hi : s.idxIn = s.total) (hq : s.q = []) : StateInv (finish s) := by
  have hck : (finish s).check = s.check := rfl
  constructor <;> simp only [hck, finish_par, finish_phase, finish_op, finish_total, finish_idxIn,
    finish_idxOut, finish_fail, finish_cause, finish_pos, finish_q, finish_outUp, finish_out]
  exacts [h.parameters, h.delivered_le_consumed, h.consumed_le_total, h.total_bound, h.queue_bound, fun _ => hq,
    h.shown_beat, fun _ => hi, h.exact_while_ok, h.no_output, h.cause_iff_fail, h.pos_zero, h.pos_chunk,
    fun _ => h.total_checked (by simp [hp]), fun _ => h.failed_check (by simp [hp]), fun _ => h.passed_check (by simp [hp]),
    fun _ => h.out_cells (by simp [hp]), by simp]

/-- RES-DELIVER (40_call_protocol.md R118). -/
theorem deliverResult_inv {s : State} (h : StateInv s) (hp : s.phase = .result) : StateInv (deliverResult s) := by
  have hck : (deliverResult s).check = s.check := rfl
  constructor <;> simp only [hck, deliverResult_par, deliverResult_phase, deliverResult_op, deliverResult_total, deliverResult_idxIn, deliverResult_idxOut, deliverResult_fail,
    deliverResult_cause, deliverResult_pos, deliverResult_q, deliverResult_outUp, deliverResult_out]
  exacts [h.parameters, h.delivered_le_consumed, h.consumed_le_total, h.total_bound, h.queue_bound,
    fun _ => h.queue_only_in_run (by simp [hp]), h.shown_beat, by simp, h.exact_while_ok, h.no_output, h.cause_iff_fail,
    h.pos_zero, h.pos_chunk, by simp, by simp, by simp, by simp, by simp]

/-- An output beat stays on offer (40_call_protocol.md R111). -/
theorem holdOut_inv {s : State} (h : StateInv s) (hq : s.q ≠ []) : StateInv (holdOut s) := by
  have hck : (holdOut s).check = s.check := rfl
  constructor <;> simp only [hck, holdOut_par, holdOut_phase, holdOut_op, holdOut_total,
    holdOut_idxIn, holdOut_idxOut, holdOut_fail, holdOut_cause, holdOut_pos, holdOut_q, holdOut_outUp, holdOut_out]
  exacts [h.parameters, h.delivered_le_consumed, h.consumed_le_total, h.total_bound, h.queue_bound, h.queue_only_in_run,
    fun _ => hq, h.result_after_beats, h.exact_while_ok, h.no_output, h.cause_iff_fail, h.pos_zero, h.pos_chunk,
    h.total_checked, h.failed_check, h.passed_check, h.out_cells, h.out_between_calls]

/-- OUT-DELIVER (40_call_protocol.md R116). -/
theorem deliverOut_inv {s : State} (h : StateInv s) (hp : s.phase = .run) : StateInv (deliverOut s) := by
  cases hq : s.q with
  | nil => rw [deliverOut_nil s hq]; exact h
  | cons b r =>
    have h2 := h.delivered_le_consumed; have h3 := h.consumed_le_total; have h4 := h.total_bound; have h5 := h.queue_bound
    simp only [hq, List.length_cons] at h2 h5
    have hs : (s.idxOut + 1).toNat = s.idxOut.toNat + 1 := toNat_succ _ (by omega)
    have hck : ∀ x y z w, State.check { s with q := x, outUp := y, idxOut := z, out := w } = s.check := fun _ _ _ _ => rfl
    rw [deliverOut_cons s hq]
    have hoc := h.out_cells (by simp [hp])
    constructor <;> simp only [hck, hs]
    · exact h.parameters
    · omega
    · exact h.consumed_le_total
    · exact h.total_bound
    · omega
    · intro hh; exact absurd hp hh
    · simp
    · exact h.result_after_beats
    · intro a c; have := h.exact_while_ok a c; simp only [hq, List.length_cons] at this; omega
    · intro hh; have := (h.no_output hh).1; simp [hq] at this
    · exact h.cause_iff_fail
    · exact h.pos_zero
    · intro hh
      obtain ⟨k, k1, k2, k3⟩ := h.pos_chunk hh
      refine ⟨k, k1, k2, fun ho => ?_⟩
      have := k3 ho; simp only [hq, List.length_cons] at this; omega
    · exact h.total_checked
    · exact h.failed_check
    · exact h.passed_check
    · intro _
      rw [Memory.writeAll_above _ _ _ (by
        intro a ha
        simp only [Memory.addresses, hoc, List.mem_range] at ha; exact ha)]
      rw [List.map_append, hoc]
      have := Memory.addresses_ofUnits (outUnits s.op b) (unitsPerOutBeat s.op * s.idxOut.toNat)
      simp only [Memory.addresses] at this
      rw [this, outUnits_length, Nat.mul_add, Nat.mul_one, List.range_eq_range', List.range_eq_range']
      rw [← List.range'_append]; simp
    · intro hh; simp [hp] at hh

/-- IN-ACCEPT under its condition (40_call_protocol.md R115): the invariant holds, and the call stays in RUN. -/
theorem inAccept_inv {s t : State} (h : StateInv s) (hp : s.phase = .run) (hlt : s.idxIn.toNat < s.total.toNat) (hroom : s.q.length < s.par.pipeDepth)
   (hb : BeatCase s t) : StateInv t ∧ t.phase = .run := by
  have h2 := h.delivered_le_consumed; have h4 := h.total_bound
  have hs : (s.idxIn + 1).toNat = s.idxIn.toNat + 1 := toNat_succ _ (by omega)
  have hck : State.check (takeBeat s) = s.check := rfl
  have hck2 : ∀ c k, State.check (failChunk c k (takeBeat s)) = s.check := fun _ _ => rfl
  have hck3 : ∀ b, State.check (pushQ b (takeBeat s)) = s.check := fun _ => rfl
  have nf : s.check.fail = false := by
    by_contra hc
    have := h.total_checked (by simp [hp])
    rw [State.check, (checkOf_regular s.par s.op s.size.toInt s.len.toNat).1 (by simpa [State.check] using hc)] at this
    rw [this] at hlt; simp at hlt
  -- a drained or valid beat
  have plain : (s.fail = true ∨ s.op = .val) → StateInv (takeBeat s) := by
    intro hv
    constructor <;> simp only [hck, takeBeat_par, takeBeat_phase, takeBeat_op, takeBeat_total, takeBeat_idxIn,
      takeBeat_idxOut, takeBeat_fail, takeBeat_cause, takeBeat_pos, takeBeat_q, takeBeat_outUp, takeBeat_out, hs]
    · exact h.parameters
    · omega
    · omega
    · exact h.total_bound
    · exact h.queue_bound
    · exact h.queue_only_in_run
    · exact h.shown_beat
    · simp [hp]
    · intro a b; rcases hv with hv | hv
      · simp [hv] at a
      · simp [hv] at b
    · exact h.no_output
    · exact h.cause_iff_fail
    · exact h.pos_zero
    · intro hh; obtain ⟨k, a, b, c⟩ := h.pos_chunk hh; exact ⟨k, by omega, b, c⟩
    · exact h.total_checked
    · exact h.failed_check
    · exact h.passed_check
    · exact h.out_cells
    · exact h.out_between_calls
  have push : ∀ b, (s.op = .enc ∨ s.op = .dec) → s.fail = false → StateInv (pushQ b (takeBeat s)) := by
    intro b hv hf
    constructor <;> simp only [hck3, takeBeat_par, takeBeat_phase, takeBeat_op, takeBeat_total, takeBeat_idxIn,
      takeBeat_idxOut, takeBeat_fail, takeBeat_cause, takeBeat_pos, takeBeat_q, takeBeat_outUp, takeBeat_out, hs, pushQ_par,
      pushQ_phase, pushQ_op, pushQ_total, pushQ_idxIn, pushQ_idxOut, pushQ_fail, pushQ_cause, pushQ_pos, pushQ_q,
      pushQ_outUp, pushQ_out, List.length_append, List.length_singleton]
    · exact h.parameters
    · omega
    · omega
    · exact h.total_bound
    · omega
    · simp [hp]
    · simp
    · simp [hp]
    · intro a c; have := h.exact_while_ok a c; omega
    · intro hh; rcases hv with hv | hv <;> simp [hv] at hh
    · exact h.cause_iff_fail
    · exact h.pos_zero
    · intro hh
      have := h.cause_iff_fail.not.1 (by simp [hf])
      simp only [not_not] at this
      simp [this] at hh
    · exact h.total_checked
    · exact h.failed_check
    · exact h.passed_check
    · exact h.out_cells
    · exact h.out_between_calls
  cases hb with
  | none _ ht => subst ht; exact ⟨h, hp⟩
  | encoded b r hins hop ht =>
    subst ht
    refine ⟨push _ (.inl hop) ?_, by simpa using hp⟩
    have := h.passed_check (by simp [hp]) nf
    simp [hop] at this
    by_contra hf
    exact h.cause_iff_fail.1 (by simpa using hf) this
  | decoded b r v hins hop hf hc ht => subst ht; exact ⟨push _ (.inr hop) hf, by simpa using hp⟩
  | valid b r v hins hop hf hc ht => subst ht; exact ⟨plain (.inr hop), by simpa using hp⟩
  | drained b r hins hop hf ht => subst ht; exact ⟨plain (.inl hf), by simpa using hp⟩
  | failing b r c hins hop hf hc ht =>
    subst ht
    refine ⟨?_, by simpa using hp⟩
    have hcc := decChunk_fail hc
    have hpos : (5#32 * s.idxIn).toNat = 5 * s.idxIn.toNat := by
      rw [BitVec.toNat_mul, show (5#32).toNat = 5 from rfl]; omega
    constructor <;> simp only [hck2, failChunk_par, failChunk_phase, failChunk_op, failChunk_total, failChunk_idxIn,
      failChunk_idxOut, failChunk_fail, failChunk_cause, failChunk_pos, failChunk_q, failChunk_outUp, failChunk_out,
      takeBeat_par, takeBeat_phase, takeBeat_op, takeBeat_total, takeBeat_idxIn, takeBeat_idxOut, takeBeat_q, takeBeat_outUp, takeBeat_out, hs, hpos]
    · exact h.parameters
    · omega
    · omega
    · exact h.total_bound
    · exact h.queue_bound
    · exact h.queue_only_in_run
    · exact h.shown_beat
    · simp [hp]
    · simp
    · exact h.no_output
    · rcases hcc with rfl | rfl <;> simp
    · rcases hcc with rfl | rfl <;> simp
    · intro _
      refine ⟨s.idxIn.toNat, by omega, rfl, fun ho => h.exact_while_ok hf (.inr ho)⟩
    · exact h.total_checked
    · simp [nf]
    · intro _ _; right; refine ⟨?_, hcc⟩; rcases hop with hop | hop <;> simp [hop]
    · exact h.out_cells
    · exact h.out_between_calls

end Sys2Proof.Machine
end

