-- ==== Sys2Proof/Laws/Run.lean ====
section
/-! SUPPORT. A call from its first beat to its result word: what its beats compute, and that it ends, whatever the schedule
(40_call_protocol.md R121, R122, R125). -/

namespace Sys2Proof.Machine

/-- What an input beat leaves alone. -/
theorem BeatCase.frame {s t : State} (h : BeatCase s t) : t.phase = s.phase ∧ t.op = s.op ∧ t.size = s.size ∧
    t.len = s.len ∧ t.total = s.total ∧ t.par = s.par ∧ t.receipts = s.receipts ∧ t.outUp = s.outUp ∧ (s.fail = true →
    s.op ≠ .enc → t.fail = true ∧ t.cause = s.cause ∧ t.pos = s.pos) ∧ (s.op = .enc → t.fail = s.fail ∧ t.cause = s.cause ∧
    t.pos = s.pos) ∧ (∃ l, t.q = s.q ++ l) ∧ t.edges = s.edges := by
  cases h <;> simp_all
  all_goals (rcases ‹_ ∨ _› with h | h <;> simp_all)

/-- What the output side of an edge leaves alone. -/
theorem outEvent_frame (e s t) : (outEvent e s t).phase = t.phase ∧ (outEvent e s t).op = t.op ∧
    (outEvent e s t).size = t.size ∧ (outEvent e s t).len = t.len ∧ (outEvent e s t).total = t.total ∧
    (outEvent e s t).par = t.par ∧ (outEvent e s t).receipts = t.receipts ∧ (outEvent e s t).fail = t.fail ∧
    (outEvent e s t).cause = t.cause ∧ (outEvent e s t).pos = t.pos ∧ (outEvent e s t).edges = t.edges := by
  rcases outEvent_cases e s t with ⟨_, h⟩ | ⟨_, _, h⟩ | ⟨_, _, h⟩ <;> rw [h] <;> simp

/-- The input side of an edge in RUN: a beat or nothing. -/
theorem input_cases {s b : State} (hi : (inTransfers s.edge (arrive s) = true ∧ inAccept (arrive s) = .next b) ∨
        (inTransfers s.edge (arrive s) = false ∧ b = arrive s)) : BeatCase (arrive s) b ∨ b = arrive s := by
  rcases hi with ⟨_, h⟩ | ⟨_, h⟩
  · exact .inl (inAccept_cases h)
  · exact .inr h

/-- What the input side of an edge leaves alone. -/
theorem input_frame {s b : State} (hi : BeatCase (arrive s) b ∨ b = arrive s) : b.phase = s.phase ∧ b.op = s.op ∧
    b.size = s.size ∧ b.len = s.len ∧ b.total = s.total ∧ b.par = s.par ∧ b.receipts = s.receipts ∧ (s.fail = true →
    b.fail = true ∧ b.cause = s.cause ∧ b.pos = s.pos) ∧ (∃ l, b.q = s.q ++ l) ∧ b.outUp = s.outUp ∧
    b.edges = s.edges.tail := by
  rcases hi with h | rfl
  · obtain ⟨h1,h2,h3,h4,h5,h6,h7,h8,h9,h10,h11,h12⟩ := BeatCase.frame h
    refine ⟨h1,h2,h3,h4,h5,h6,h7,fun hf => ?_,h11,h8,h12⟩
    by_cases ho : s.op = .enc
    · have := h10 ho; simpa [hf] using this
    · exact h9 hf ho
  · simp

/-- How far the beats of a call have brought it: the failure flags, and every output beat so far, delivered or not. -/
structure Progress where
  fail : Bool
  cause : Cause
  pos : BitVec 32
  outs : List OutBeat

/-- One beat, number `k`, of a call of `op` (40_call_protocol.md R115). -/
def beatProgress (op : Op) (w : Nat) (k : BitVec 32) (b : InBeat) (p : Progress) : Progress :=
  match op with
  | .enc => { p with outs := p.outs ++ [encChunk (encInChunk b)] }
  | .dec => if p.fail then p else match decChunk (lanes5 w b) with
    | .ok v => { p with outs := p.outs ++ [decOutBeat v] }
    | .fail c => { p with fail := true, cause := c, pos := 5#32 * k }
  | .val => if p.fail then p else match decChunk (lanes5 w b) with
    | .ok _ => p
    | .fail c => { p with fail := true, cause := c, pos := 5#32 * k }
  | .rsv3 => p

/-- The beats from number `k` on, in order. -/
def foldBeats (op : Op) (w : Nat) (k : BitVec 32) : List InBeat → Progress → Progress
  | [], p => p
  | b :: bs, p => foldBeats op w (k + 1) bs (beatProgress op w k b p)

/-- The receipt of a call that ends so (30_encoding.md R88, 60_exceptions.md R228). -/
def Progress.receipt (op : Op) (p : Progress) : Receipt :=
  { res := resultWord (p.fail && decide (op ≠ .val)) (!p.fail) p.cause p.pos
    out := if p.fail && decide (op ≠ .val) then [] else Memory.ofUnits 0 (p.outs.flatMap (outUnits op)) }

/-- A beat takes the call one step of `beatProgress` further, whatever part `d` of the output is delivered. -/
theorem inAccept_progress {s t : State} (d : List OutBeat) (b r) (hin : s.ins = b :: r) (h : inAccept s = .next t) :
   (⟨t.fail, t.cause, t.pos, d ++ t.q⟩ : Progress) = beatProgress s.op s.par.charW s.idxIn b ⟨s.fail, s.cause, s.pos,
       d ++ s.q⟩ ∧ t.ins = r ∧ t.idxIn = s.idxIn + 1 ∧ t.idxOut = s.idxOut ∧ t.out = s.out ∧ t.cmds = s.cmds ∧
       t.q.length ≤ s.q.length + 1 := by
  cases inAccept_cases h with
  | none hi => rw [hi] at hin; cases hin
  | encoded b' r' hins hop ht =>
    rw [hins] at hin; cases hin; subst ht; simp [beatProgress, hop, hins]
  | decoded b' r' v hins hop hf hc ht =>
    rw [hins] at hin; cases hin; subst ht; simp [beatProgress, hop, hins, hf, hc]
  | valid b' r' v hins hop hf hc ht =>
    rw [hins] at hin; cases hin; subst ht; simp [beatProgress, hop, hins, hf, hc]
  | failing b' r' c hins hop hf hc ht =>
    rw [hins] at hin; cases hin; subst ht; rcases hop with hop | hop <;> simp [beatProgress, hop, hins, hf, hc]
  | drained b' r' hins hop hf ht =>
    rw [hins] at hin; cases hin; subst ht; rcases hop with hop | hop <;> simp [beatProgress, hop, hins, hf]

/-- A run is a step and the rest. -/
theorem run_succ_of_step (M : Host.Core) {s t : M.State} (h : M.step s = .next t) (n) : M.run (n + 1) s = M.run n t := by
  simp only [Host.Core.run, h]

/-- The same of this machine. -/
theorem run_succ {s t : State} (h : step s = .next t) (n) : Sys2Proof.core.run (n + 1) s = Sys2Proof.core.run n t := by
  exact run_succ_of_step Sys2Proof.core h n

/-- Every step uses up one edge. -/
theorem step_edges {s t : State} (h : step s = .next t) : t.edges = s.edges.tail := by
  cases step_cases h with
  | reset hr ht => subst ht; unfold resetEvent; split <;> rfl
  | idleWait hr hp hc ht => subst ht; rfl
  | command w cs hr hp hc ht => subst ht; simp
  | finWait hr hp he hh ht => subst ht; rfl
  | fin hr hp he hh ht => subst ht; rfl
  | run b hr hp he hi ht =>
    subst ht
    rw [(outEvent_frame _ _ _).2.2.2.2.2.2.2.2.2.2]
    rcases hi with ⟨_, h2⟩ | ⟨_, rfl⟩
    · exact (BeatCase.frame (inAccept_cases h2)).2.2.2.2.2.2.2.2.2.2.2
    · rfl
  | resWait hr hp hh ht => subst ht; rfl
  | deliver hr hp hh ht => subst ht; rfl

/-- Without a reset among the coming edges, the coming edge is none, and none is among the rest. -/
theorem noReset_of_step {s t : State} (h : t.edges = s.edges.tail) (hn : s.noReset) : t.noReset ∧ s.edge.rst = false := by
  constructor
  · intro e he; rw [h] at he; exact hn e (List.mem_of_mem_tail he)
  · unfold State.edge
    cases he : s.edges with
    | nil => rfl
    | cons e es => exact hn e (by simp [he])

/-- What the next edges bring is what the coming one brings, and the rest. -/
theorem newOffers_succ {s t : State} (h : t.edges = s.edges.tail) (n) :
    s.newBeats (n + 1) = s.edge.newBeat.toList ++ t.newBeats n ∧ s.newCmds (n + 1) = s.edge.newCmd.toList ++ t.newCmds n := by
  unfold State.newBeats State.newCmds State.edge
  rw [h]
  cases he : s.edges with
  | nil => simp [Edge.willing]
  | cons e es =>
    simp only [List.take_succ_cons, List.filterMap_cons, List.tail_cons]
    constructor
    · cases e.newBeat <;> simp
    · cases e.newCmd <;> simp

/-- After the listed edges every edge is the willing one. -/
theorem edge_of_nil {s : State} (h : s.edges = []) : s.edge = Edge.willing := by unfold State.edge; rw [h]

/-- From RESULT, while every step keeps the invariant: the host takes the result word at last (40_call_protocol.md R118,
    R121). -/
theorem result_ends (keep : ∀ s, StateInv s → ∃ t, step s = .next t ∧ StateInv t) (m : Nat) : ∀ s : State,
    s.edges.length ≤ m → StateInv s → s.noReset → s.phase = .result →
   ∃ n t, Sys2Proof.core.run n s = .next t ∧ t.phase = .idle ∧ t.receipts = s.receipts ++ [⟨s.result,
       if s.err then [] else s.out⟩] ∧ t.cmds = s.cmds ++ s.newCmds n ∧ t.ins = s.ins ++ s.newBeats n := by
  induction m with
  | zero =>
    intro s hm hi hn hp
    have he : s.edges = [] := by simpa using hm
    have hw := edge_of_nil he
    obtain ⟨t, ht, _⟩ := keep s hi
    have het := step_edges ht
    refine ⟨1, t, by rw [run_succ ht]; rfl, ?_⟩
    cases step_cases ht with
    | deliver hr hp2 hh ht2 =>
      subst ht2
      refine ⟨rfl, rfl, ?_, ?_⟩
      · rw [(newOffers_succ het 0).2]; simp [State.newCmds]
      · rw [(newOffers_succ het 0).1]; simp [State.newBeats]
    | reset hr => rw [hw] at hr; cases hr
    | resWait hr hp hh => rw [hw] at hh; cases hh
    | idleWait hr hp2 => rw [hp] at hp2; cases hp2
    | command w cs hr hp2 => rw [hp] at hp2; cases hp2
    | finWait hr hp2 => rw [hp] at hp2; cases hp2
    | fin hr hp2 => rw [hp] at hp2; cases hp2
    | run b hr hp2 => rw [hp] at hp2; cases hp2
  | succ m ih =>
    intro s hm hi hn hp
    obtain ⟨t, ht, hti⟩ := keep s hi
    have het := step_edges ht
    have hnr := noReset_of_step het hn
    cases step_cases ht with
    | deliver hr hp2 hh ht2 =>
      refine ⟨1, t, by rw [run_succ ht]; rfl, ?_⟩
      subst ht2
      refine ⟨rfl, rfl, ?_, ?_⟩
      · rw [(newOffers_succ het 0).2]; simp [State.newCmds]
      · rw [(newOffers_succ het 0).1]; simp [State.newBeats]
    | reset hr => rw [hnr.2] at hr; cases hr
    | resWait hr hp2 hh ht2 =>
      obtain ⟨n, u, h1, h2, h3, h4, h5⟩ := ih t (by rw [het, List.length_tail]; omega) hti hnr.1 (by subst ht2; exact hp)
      refine ⟨n + 1, u, by rw [run_succ ht, h1], h2, ?_, ?_, ?_⟩
      · rw [h3, ht2]; rfl
      · rw [h4, (newOffers_succ het n).2, ht2]; simp
      · rw [h5, (newOffers_succ het n).1, ht2]; simp
    | idleWait hr hp2 => rw [hp] at hp2; cases hp2
    | command w cs hr hp2 => rw [hp] at hp2; cases hp2
    | finWait hr hp2 => rw [hp] at hp2; cases hp2
    | fin hr hp2 => rw [hp] at hp2; cases hp2
    | run b hr hp2 => rw [hp] at hp2; cases hp2

/-- OUT-DELIVER adds the units of the head of `Q` to an OUT that holds those of `d`. -/
theorem deliverOut_cells {b : State} (hb : StateInv b) (hbp : b.phase = .run) (d : List OutBeat) (hd :
    b.out = Memory.ofUnits 0 (d.flatMap (outUnits b.op))) (hdl : d.length = b.idxOut.toNat) (x xs) (hq : b.q = x :: xs) :
   (deliverOut b).out = Memory.ofUnits 0 ((d ++ [x]).flatMap (outUnits b.op)) ∧
       (d ++ [x]).length = (deliverOut b).idxOut.toNat ∧ (deliverOut b).q = xs := by
  have h2 := hb.2; have h3 := hb.3; have h4 := hb.4; have h17 := hb.17 (by simp [hbp])
  rw [deliverOut_cons _ hq]
  have hs : (b.idxOut + 1).toNat = b.idxOut.toNat + 1 := toNat_succ _ (by omega)
  refine ⟨?_, by rw [hs, List.length_append, hdl]; rfl, rfl⟩
  have hl : (d.flatMap (outUnits b.op)).length = unitsPerOutBeat b.op * b.idxOut.toNat := by
    rw [← hdl, List.length_flatMap]; simp only [outUnits_length]
    simp; rw [Nat.mul_comm]
  simp only
  rw [Memory.writeAll_above _ _ _ (by
    intro a ha; simp only [Memory.addresses, h17, List.mem_range] at ha; exact ha), hd, List.flatMap_append,
        Memory.ofUnits_append, hl]
  simp

/-- From RUN, while every step keeps the invariant: a call whose beats are all on offer ends,
    and its receipt is that of `foldBeats` (40_call_protocol.md R121, R125). -/
theorem run_ends (keep : ∀ s, StateInv s → ∃ t, step s = .next t ∧ StateInv t) (m : Nat) : ∀ (s : State) (d :
    List OutBeat) (bs rest : List InBeat), s.edges.length + 2 * bs.length + s.q.length ≤ m → StateInv s → s.noReset →
    s.phase = .run →
   s.ins = bs ++ rest → s.idxIn.toNat + bs.length = s.total.toNat → s.out = Memory.ofUnits 0 (d.flatMap (outUnits s.op)) →
       d.length = s.idxOut.toNat →
   ∃ n t, Sys2Proof.core.run n s = .next t ∧ t.phase = .idle ∧
       t.receipts = s.receipts ++ [Progress.receipt s.op (foldBeats s.op s.par.charW s.idxIn bs ⟨s.fail, s.cause, s.pos,
       d ++ s.q⟩)] ∧ t.cmds = s.cmds ++ s.newCmds n ∧ t.ins = rest ++ s.newBeats n := by
  induction m using Nat.strong_induction_on with
  | _ m ih =>
  intro s d bs rest hm hi hn hp hins hbs hout hdl
  obtain ⟨t, ht, hti⟩ := keep s hi
  have het := step_edges ht
  have hnr := noReset_of_step het hn
  have wrap : ∀ (d' : List OutBeat) (bs' : List InBeat), t.edges.length + 2 * bs'.length + t.q.length < m →
      t.phase = .run → t.ins = bs' ++ (rest ++ s.edge.newBeat.toList) →
     t.idxIn.toNat + bs'.length = t.total.toNat → t.out = Memory.ofUnits 0 (d'.flatMap (outUnits t.op)) →
         d'.length = t.idxOut.toNat → t.cmds = s.cmds ++ s.edge.newCmd.toList → t.receipts = s.receipts → t.op = s.op →
     foldBeats t.op t.par.charW t.idxIn bs' ⟨t.fail, t.cause, t.pos,
         d' ++ t.q⟩ = foldBeats s.op s.par.charW s.idxIn bs ⟨s.fail, s.cause, s.pos, d ++ s.q⟩ →
     ∃ n t, Sys2Proof.core.run n s = .next t ∧ t.phase = .idle ∧
         t.receipts = s.receipts ++ [Progress.receipt s.op (foldBeats s.op s.par.charW s.idxIn bs ⟨s.fail, s.cause, s.pos,
         d ++ s.q⟩)] ∧ t.cmds = s.cmds ++ s.newCmds n ∧ t.ins = rest ++ s.newBeats n := by
    intro d' bs' a1 a2 a3 a4 a5 a6 a7 a8 a10 a9
    obtain ⟨n, u, h1, h2, h3, h4, h5⟩ := ih _ a1 t d' bs' (rest ++ s.edge.newBeat.toList) le_rfl hti hnr.1 a2 a3 a4 a5 a6
    refine ⟨n + 1, u, by rw [run_succ ht, h1], h2, ?_, ?_, ?_⟩
    · rw [h3, a8, a9, a10]
    · rw [h4, a7, (newOffers_succ het n).2, List.append_assoc]
    · rw [h5, (newOffers_succ het n).1, List.append_assoc]
  have hlen : t.edges.length ≤ s.edges.length ∧ (s.edges ≠ [] → t.edges.length < s.edges.length) := by
    rw [het, List.length_tail]
    refine ⟨by omega, fun h => ?_⟩
    have := List.length_pos_of_ne_nil h; omega
  cases step_cases ht with
  | reset hr => rw [hnr.2] at hr; cases hr
  | idleWait hr hp2 => rw [hp] at hp2; cases hp2
  | command w cs hr hp2 => rw [hp] at hp2; cases hp2
  | resWait hr hp2 => rw [hp] at hp2; cases hp2
  | deliver hr hp2 => rw [hp] at hp2; cases hp2
  | finWait hr hp2 he hh ht2 =>
    have hne : s.edges ≠ [] := by intro h; rw [edge_of_nil h] at hh; cases hh
    have := hlen.2 hne
    subst ht2
    exact wrap d bs (by simp only [arrive_q]; omega) hp (by simp [hins]) hbs hout hdl rfl rfl rfl rfl
  | fin hr hp2 he hh ht2 =>
    have hf := (finishEnabled_iff _).1 he
    have hbs0 : bs = [] := by
      have : s.idxIn = s.total := hf.2.1
      rw [this] at hbs; simpa using hbs
    have hq : s.q = [] := hf.2.2
    obtain ⟨n, u, h1, h2, h3, h4, h5⟩ := result_ends keep _ t le_rfl hti hnr.1 (by subst ht2; rfl)
    refine ⟨n + 1, u, by rw [run_succ ht, h1], h2, ?_, ?_, ?_⟩
    · rw [h3, ht2]; subst hbs0
      simp only [finish_receipts, arrive_receipts, foldBeats, Progress.receipt, hq, List.append_nil, State.result,
          State.err, State.verdict, finish_fail, finish_op, finish_cause, finish_pos, finish_out, arrive_fail, arrive_op,
          arrive_cause, arrive_pos, arrive_out, hout]
      rfl
    · rw [h4, (newOffers_succ het n).2, ht2]; simp
    · rw [h5, (newOffers_succ het n).1, ht2]; subst hbs0; simp [hins]
  | run b hr hp2 he hb ht2 =>
    -- the input side
    have hbi : StateInv b ∧ b.phase = .run ∧ ((arrive s).q ≠ [] → b.q ≠ []) := by
      rcases hb with ⟨h1, h2⟩ | ⟨_, rfl⟩
      · have hi2 := (inTransfers_iff _ _).1 h1
        have hbc := inAccept_cases h2
        have := inAccept_inv (arrive_inv hi) hi2.1 (by simpa [BitVec.lt_def] using hi2.2.1) hi2.2.2.1 hbc
        refine ⟨this.1, this.2, ?_⟩
        cases hbc <;> simp_all
      · exact ⟨arrive_inv hi, hp, id⟩
    have hbf := input_frame (s := s) (b := b) (by
      rcases hb with ⟨_, h2⟩ | ⟨_, rfl⟩
      · exact .inl (inAccept_cases h2)
      · exact .inr rfl)
    have hmid : ∃ bs', b.ins = bs' ++ (rest ++ s.edge.newBeat.toList) ∧ b.idxIn.toNat + bs'.length = b.total.toNat ∧
        b.idxOut = s.idxOut ∧ b.out = s.out ∧ b.cmds = s.cmds ++ s.edge.newCmd.toList ∧
       foldBeats b.op b.par.charW b.idxIn bs' ⟨b.fail, b.cause, b.pos,
           d ++ b.q⟩ = foldBeats s.op s.par.charW s.idxIn bs ⟨s.fail, s.cause, s.pos, d ++ s.q⟩ ∧
           2 * bs'.length + b.q.length ≤ 2 * bs.length + s.q.length ∧
       (inTransfers s.edge (arrive s) = true → 2 * bs'.length + b.q.length < 2 * bs.length + s.q.length) := by
      rcases hb with ⟨h1, h2⟩ | ⟨h1, rfl⟩
      · have hi2 := (inTransfers_iff _ _).1 h1
        have hlt : s.idxIn.toNat < s.total.toNat := by simpa [BitVec.lt_def] using hi2.2.1
        rcases bs with _ | ⟨x, bs'⟩
        · simp at hbs; omega
        have hai : (arrive s).ins = x :: (bs' ++ (rest ++ s.edge.newBeat.toList)) := by simp [hins]
        obtain ⟨p1, p2, p3, p4, p5, p6, p7⟩ := inAccept_progress d _ _ hai h2
        have hs : (s.idxIn + 1).toNat = s.idxIn.toNat + 1 := toNat_succ _ (by have := hi.4; omega)
        refine ⟨bs', p2, ?_, p4, p5, p6, ?_, ?_, ?_⟩
        · rw [p3, hbf.2.2.2.2.1]; simp only [arrive_idxIn, hs]; simp at hbs; omega
        · rw [p1, p3, hbf.2.1, hbf.2.2.2.2.2.1]; rfl
        · simp only [arrive_q] at p7; simp; omega
        · simp only [arrive_q] at p7; simp; omega
      · exact ⟨bs, by simp [hins], hbs, rfl, rfl, rfl, rfl, le_rfl, fun h => by rw [h1] at h; cases h⟩
    obtain ⟨bs', m1, m2, m3, m4, m5, m6, m7, m8⟩ := hmid
    have hprog : s.edges = [] → inTransfers s.edge (arrive s) = true ∨ outTransfers s.edge (arrive s) = true := by
      intro h
      have hw := edge_of_nil h
      by_cases hq : s.q = []
      · left
        rw [inTransfers_iff]
        have hne : s.idxIn ≠ s.total := by
          intro hh
          have : finishEnabled (arrive s) = true := by rw [finishEnabled_iff]; exact ⟨hp, hh, hq⟩
          rw [he] at this; cases this
        have hne : s.idxIn.toNat ≠ s.total.toNat := fun h => hne (BitVec.eq_of_toNat_eq h)
        have hw1 := hi.1
        simp [Params.wf] at hw1
        refine ⟨hp, ?_, ?_, by rw [hw]; rfl, hr, ?_⟩
        · rw [BitVec.lt_def]; have := hi.3; simp; omega
        · simp [hq]; omega
        · rcases bs with _ | ⟨x, bs⟩
          · simp at hbs; omega
          · simp [hins]
      · right
        rw [outTransfers_iff]
        exact ⟨hq, .inr (by rw [hw]; rfl), hr, by rw [hw]; rfl⟩
    rcases outEvent_cases s.edge (arrive s) b with ⟨o1, e⟩ | ⟨o1, hv, e⟩ | ⟨o1, _, e⟩
    · rw [e] at ht2
      have hbq : b.q ≠ [] := hbi.2.2 ((outTransfers_iff _ _).1 o1).1
      obtain ⟨x, xs, hx⟩ := List.exists_cons_of_ne_nil hbq
      obtain ⟨q1, q2, q3⟩ := deliverOut_cells hbi.1 hbi.2.1 d (by rw [m4, hout, hbf.2.1]) (by rw [m3, hdl]) x xs hx
      subst ht2
      refine wrap (d ++ [x]) bs' ?_ (by rw [deliverOut_phase]; exact hbi.2.1) (by rw [deliverOut_ins]; exact m1) (by rw [deliverOut_idxIn, deliverOut_total]; exact m2) (by rw [deliverOut_op]; exact q1) q2 (by rw [deliverOut_cmds]; exact m5) (by rw [deliverOut_receipts]; exact hbf.2.2.2.2.2.2.1) (by rw [deliverOut_op]; exact hbf.2.1) ?_
      · rw [q3]; rw [hx] at m7; simp at m7; have := hlen.1; omega
      · simp only [deliverOut_op, deliverOut_par, deliverOut_idxIn, deliverOut_fail, deliverOut_cause, deliverOut_pos, q3]
        rw [← m6, hx]; simp
    · have hlt : t.edges.length + 2 * bs'.length + b.q.length < m := by
        by_cases hne : s.edges = []
        · rcases hprog hne with h | h
          · have := m8 h; have := hlen.1; omega
          · rw [o1] at h; cases h
        · have := hlen.2 hne; omega
      rw [e] at ht2
      subst ht2
      exact wrap d bs' hlt hbi.2.1 m1 m2 (by simp only [holdOut_out, holdOut_op]; rw [m4, hout,
          hbf.2.1]) (by simp only [holdOut_idxOut]; rw [m3, hdl]) m5 hbf.2.2.2.2.2.2.1 hbf.2.1 m6
    · have hlt : t.edges.length + 2 * bs'.length + b.q.length < m := by
        by_cases hne : s.edges = []
        · rcases hprog hne with h | h
          · have := m8 h; have := hlen.1; omega
          · rw [o1] at h; cases h
        · have := hlen.2 hne; omega
      rw [e] at ht2
      subst ht2
      exact wrap d bs' hlt hbi.2.1 m1 m2 (by rw [m4, hout, hbf.2.1]) (by rw [m3, hdl]) m5 hbf.2.2.2.2.2.2.1 hbf.2.1 m6

end Sys2Proof.Machine
end

