-- ==== Sys2Proof/Laws/Calls.lean ====
section
/-! SUPPORT. A call from its command word to its result word, and the beats of a buffer against the calls as functions of it
(40_call_protocol.md R121, R122, R125; 41_encode.md R146, 42_decode.md R169, 43_isvalid.md R184). The hypotheses `keep`, `back` and
`lanes` are what TheInvariantIsKept, DecodeOfEncodeIsTheCommand and LanesCarryTheUnitsInOrder say. -/

namespace Sys2Proof.Machine

/-- From IDLE with a command on offer and its beats: the call ends, and its receipt is that of `foldBeats`. -/
theorem call_ends (keep : ∀ s, StateInv s → ∃ t, step s = .next t ∧ StateInv t) {s : State} {i : Instr}
    (back : decode (encode i) = i) (hw : i.wellFormed = true) {cs : List CmdWord} {bs rest : List InBeat} (hi : StateInv s)
    (hp : s.phase = .idle) (hn : s.noReset) (hc : s.cmds = encode i :: cs) (hins : s.ins = bs ++ rest)
    (hlen : bs.length = (checkOf s.par i.op i.size i.len).total.toNat) :
    ∃ n t, Sys2Proof.core.run n s = .next t ∧ t.phase = .idle ∧
      t.receipts = s.receipts ++ [Progress.receipt i.op (foldBeats i.op s.par.charW 0 bs
        ⟨(checkOf s.par i.op i.size i.len).fail, (checkOf s.par i.op i.size i.len).cause, 0, []⟩)] ∧
      t.cmds = cs ++ s.newCmds n ∧ t.ins = rest ++ s.newBeats n := by
  obtain ⟨t, ht, hti⟩ := keep s hi
  have het := step_edges ht
  have hnr := noReset_of_step het hn
  have hz : (BitVec.ofInt 32 i.size).toInt = i.size ∧ (BitVec.ofNat 31 i.len).toNat = i.len := by
    have hr : (-(2 ^ 31) ≤ i.size ∧ i.size < 2 ^ 31) ∧ i.len < 2 ^ 31 := by simpa [Instr.wellFormed, sizeFits, lenFits] using hw
    constructor
    · rw [BitVec.toInt_ofInt, Int.bmod_eq_of_le] <;> omega
    · rw [BitVec.toNat_ofNat]; omega
  cases step_cases ht with
  | command w cs' hr hp2 hc2 ht2 =>
    obtain ⟨rfl, rfl⟩ : w = encode i ∧ cs' = cs ++ s.edge.newCmd.toList := by
      simp only [arrive_cmds, hc, List.cons_append, List.cons.injEq] at hc2
      exact ⟨hc2.1.symm, hc2.2.symm⟩
    rw [back, hz.1, hz.2, applyCheck_loadCommand (checkOf_regular _ _ _ _)] at ht2
    obtain ⟨n, u, h1, h2, h3, h4, h5⟩ := run_ends keep _ t [] bs (rest ++ s.edge.newBeat.toList) le_rfl hti hnr.1
      (by rw [ht2]) (by rw [ht2]; simp [hins]) (by rw [ht2]; simp [hlen])
      (by rw [ht2]; simp [hi.out_between_calls hp, Memory.ofUnits]) (by rw [ht2]; rfl)
    refine ⟨n + 1, u, by rw [run_succ ht, h1], h2, ?_, ?_, ?_⟩
    · rw [h3, ht2]; rfl
    · rw [h4, (newOffers_succ het n).2, ht2]; simp [hc]
    · rw [h5, (newOffers_succ het n).1]; simp
  | idleWait hr hp2 hc2 => simp [hc] at hc2
  | reset hr => rw [hnr.2] at hr; cases hr
  | fin hr hp2 => rw [hp] at hp2; cases hp2
  | finWait hr hp2 => rw [hp] at hp2; cases hp2
  | run b hr hp2 => rw [hp] at hp2; cases hp2
  | resWait hr hp2 => rw [hp] at hp2; cases hp2
  | deliver hr hp2 => rw [hp] at hp2; cases hp2

/-- After a failure the beats of a DEC or VAL call change nothing (40_call_protocol.md R123). -/
theorem foldBeats_failed {op : Op} (w : Nat) (h : op = .dec ∨ op = .val) (bs : List InBeat) (k) {p : Progress}
    (hf : p.fail = true) : foldBeats op w k bs p = p := by
  induction bs generalizing k with
  | nil => rfl
  | cons b bs ih =>
    have hb : beatProgress op w k b p = p := by rcases h with rfl | rfl <;> simp [beatProgress, hf]
    rw [foldBeats, hb, ih]

/-- The ENC beats of a buffer: as many as chunks, and they add the output of `encode` (41_encode.md R146). -/
theorem foldBeats_enc (lanes : ∀ b0 b1 b2 b3 : Byte, encInChunk (encInBeat b0 b1 b2 b3) = be32 b0 b1 b2 b3) (buf : List Byte)
    (w n j : Nat) (k) (h : 4 * (j + n) ≤ buf.length) (p : Progress) :
    (encBeats buf j n).length = n ∧ ∃ outs, foldBeats .enc w k (encBeats buf j n) p = { p with outs := p.outs ++ outs } ∧
      encodeFrom buf j n = .returns (outs.flatMap (outUnits .enc)) := by
  induction n generalizing j k p with
  | zero => exact ⟨rfl, [], by simp [encBeats, foldBeats], rfl⟩
  | succ n ih =>
    obtain ⟨b0, b1, b2, b3, hr, _⟩ := bufferRead_four buf (4 * j) (by omega)
    have h1 : encBeats buf j (n + 1) = encInBeat b0 b1 b2 b3 :: encBeats buf (j + 1) n := by rw [encBeats, hr]
    obtain ⟨i1, outs, i2, i3⟩ := ih (j + 1) (k + 1) (by omega) (beatProgress .enc w k (encInBeat b0 b1 b2 b3) p)
    rw [h1]
    refine ⟨by simp [i1], encChunk (be32 b0 b1 b2 b3) :: outs, ?_, ?_⟩
    · rw [foldBeats, i2]; simp [beatProgress, lanes]
    · rw [encodeFrom_succ, hr]; simp [i3]

/-- The DEC or VAL beat of five units of a buffer, and the rest. -/
theorem decBeats_succ {buf : List Nat} {w j n : Nat} (hu : ∀ u ∈ buf, u < 2 ^ w) (h : 5 * (j + (n + 1)) ≤ buf.length) :
    ∃ u : Units5, bufferRead buf (5 * j) 5 = some [u.u0, u.u1, u.u2, u.u3, u.u4] ∧
      (u.u0 < 2 ^ w ∧ u.u1 < 2 ^ w ∧ u.u2 < 2 ^ w ∧ u.u3 < 2 ^ w ∧ u.u4 < 2 ^ w) ∧
      decBeats w buf j (n + 1) = decInBeat w u :: decBeats w buf (j + 1) n := by
  obtain ⟨u0, u1, u2, u3, u4, hr, hd⟩ := bufferRead_five buf (5 * j) (by omega)
  refine ⟨⟨u0, u1, u2, u3, u4⟩, hr, ?_, by rw [decBeats, hr]⟩
  have hm : ∀ x ∈ [u0, u1, u2, u3, u4], x < 2 ^ w := by
    intro x hx
    apply hu
    apply List.mem_of_mem_drop (i := 5 * j)
    rw [hd]; simp at hx ⊢; tauto
  simpa using hm

theorem ofNat_succ (j : Nat) : BitVec.ofNat 32 j + 1 = BitVec.ofNat 32 (j + 1) := by rw [BitVec.ofNat_add]; rfl

theorem five_mul_ofNat (j : Nat) : 5#32 * BitVec.ofNat 32 j = BitVec.ofNat 32 (5 * j) := by rw [BitVec.ofNat_mul]

/-- The DEC beats of a buffer: as many as chunks; they add the output of `decode`, or record its failure (42_decode.md R169). -/
theorem foldBeats_dec {w : Nat} (lanes : ∀ u : Units5, u.u0 < 2 ^ w ∧ u.u1 < 2 ^ w ∧ u.u2 < 2 ^ w ∧ u.u3 < 2 ^ w ∧ u.u4 < 2 ^ w →
      lanes5 w (decInBeat w u) = u) (units : ∀ v, outUnits .dec (decOutBeat v) = bytesBe v)
    (buf : List Nat) (hu : ∀ u ∈ buf, u < 2 ^ w) (n j : Nat) (h : 5 * (j + n) ≤ buf.length) (o : List OutBeat) :
    (decBeats w buf j n).length = n ∧
    ((∃ outs, foldBeats .dec w (BitVec.ofNat 32 j) (decBeats w buf j n) ⟨false, .none, 0#32, o⟩ = ⟨false, .none, 0#32, o ++ outs⟩ ∧
        decodeFrom buf j n = .returns (outs.flatMap (outUnits .dec))) ∨
      ∃ c k outs, foldBeats .dec w (BitVec.ofNat 32 j) (decBeats w buf j n) ⟨false, .none, 0#32, o⟩ =
        ⟨true, c, BitVec.ofNat 32 k, outs⟩ ∧ decodeFrom buf j n = .raises c k) := by
  induction n generalizing j o with
  | zero => exact ⟨rfl, .inl ⟨[], by simp [decBeats, foldBeats], rfl⟩⟩
  | succ n ih =>
    obtain ⟨u, hr, hm, hb⟩ := decBeats_succ hu h
    rw [hb, decodeFrom_succ, hr]
    simp only [foldBeats, ofNat_succ]
    cases hc : decChunk u with
    | fail c =>
      refine ⟨by simp [(ih (j + 1) (by omega) o).1], .inr ⟨c, 5 * j, o, ?_, by simp⟩⟩
      simp only [beatProgress, lanes u hm, hc, five_mul_ofNat]
      exact foldBeats_failed _ (.inl rfl) _ _ rfl
    | ok v =>
      obtain ⟨hl, ⟨outs, a, b⟩ | ⟨c, k, outs, a, b⟩⟩ := ih (j + 1) (by omega) (o ++ [decOutBeat v])
      · exact ⟨by simp [hl], .inl ⟨decOutBeat v :: outs, by simp [beatProgress, lanes u hm, hc, a], by simp [b, units]⟩⟩
      · exact ⟨by simp [hl], .inr ⟨c, k, outs, by simp [beatProgress, lanes u hm, hc, a], by simp [b]⟩⟩

/-- The VAL beats of a buffer: they record what `isValid` answers, and add nothing (43_isvalid.md R184). -/
theorem foldBeats_val {w : Nat} (lanes : ∀ u : Units5, u.u0 < 2 ^ w ∧ u.u1 < 2 ^ w ∧ u.u2 < 2 ^ w ∧ u.u3 < 2 ^ w ∧ u.u4 < 2 ^ w →
      lanes5 w (decInBeat w u) = u)
    (buf : List Nat) (hu : ∀ u ∈ buf, u < 2 ^ w) (n j : Nat) (h : 5 * (j + n) ≤ buf.length) (o : List OutBeat) :
    (foldBeats .val w (BitVec.ofNat 32 j) (decBeats w buf j n) ⟨false, .none, 0#32, o⟩ = ⟨false, .none, 0#32, o⟩ ∧
        isValidFrom buf j n = some ⟨true, .none, 0⟩) ∨
      ∃ c k, foldBeats .val w (BitVec.ofNat 32 j) (decBeats w buf j n) ⟨false, .none, 0#32, o⟩ = ⟨true, c, BitVec.ofNat 32 k, o⟩ ∧
        isValidFrom buf j n = some ⟨false, c, k⟩ := by
  induction n generalizing j with
  | zero => exact .inl ⟨rfl, rfl⟩
  | succ n ih =>
    obtain ⟨u, hr, hm, hb⟩ := decBeats_succ hu h
    have hv : isValidFrom buf j (n + 1) = match decChunk u with
      | .fail c => some ⟨false, c, 5 * j⟩
      | .ok _ => isValidFrom buf (j + 1) n := by rw [isValidFrom, hr] <;> rfl
    rw [hb, hv]
    simp only [foldBeats, ofNat_succ]
    cases hc : decChunk u with
    | fail c =>
      refine .inr ⟨c, 5 * j, ?_, rfl⟩
      simp only [beatProgress, lanes u hm, hc, five_mul_ofNat]
      exact foldBeats_failed _ (.inr rfl) _ _ rfl
    | ok v => simpa [beatProgress, lanes u hm, hc] using ih (j + 1) (by omega)

end Sys2Proof.Machine
end

