-- ==== Sys2Proof/Laws/Instances.lean ====
section
/-! SUPPORT. What an edge of one instance among several can do, and that a longer run only adds receipts
(60_exceptions.md R235, 40_call_protocol.md R122). -/

namespace Sys2Proof.Machine

/-- What one edge of instance `k` can do: nothing, where `k` names no instance; else the step of that instance in its place. -/
theorem stepInstance_cases {ms m : List State} {k : Nat} (h : stepInstance ms k = .next m) :
    (ms[k]? = none ∧ m = ms) ∨ ∃ s t, ms[k]? = some s ∧ step s = .next t ∧ m = ms.set k t := by
  unfold stepInstance at h
  split at h
  · next hk => cases h; exact .inl ⟨hk, rfl⟩
  · next s hk =>
    split at h
    · next t ht => cases h; exact .inr ⟨s, t, hk, ht, rfl⟩
    · cases h
    · cases h

theorem stepInstance_of_step {ms : List State} {k : Nat} {s t : State} (hk : ms[k]? = some s) (h : step s = .next t) :
    stepInstance ms k = .next (ms.set k t) := by
  simp only [stepInstance, hk, h]

theorem stepInstance_none {ms : List State} {k : Nat} (hk : ms[k]? = none) : stepInstance ms k = .next ms := by
  simp only [stepInstance, hk]

theorem runInstances_cons {ms m : List State} {k : Nat} (h : stepInstance ms k = .next m) (ks : List Nat) :
    runInstances ms (k :: ks) = runInstances m ks := by
  simp only [runInstances, h]

/-- A run that goes on has a first edge that goes on. -/
theorem runInstances_cons_next {ms ms' : List State} {k : Nat} {ks : List Nat} (h : runInstances ms (k :: ks) = .next ms') :
    ∃ m, stepInstance ms k = .next m ∧ runInstances m ks = .next ms' := by
  simp only [runInstances] at h
  split at h
  · next m hm => exact ⟨m, hm, h⟩
  · cases h
  · cases h

/-- While every step keeps the invariant, an edge of one instance goes on, and keeps the invariant of all. -/
theorem stepInstance_inv (keep : ∀ s, StateInv s → ∃ t, step s = .next t ∧ StateInv t) {ms : List State}
    (hms : ∀ m ∈ ms, StateInv m) (k : Nat) : ∃ m, stepInstance ms k = .next m ∧ ∀ s ∈ m, StateInv s := by
  cases hk : ms[k]? with
  | none => exact ⟨ms, stepInstance_none hk, hms⟩
  | some s =>
    obtain ⟨t, ht, hi⟩ := keep s (hms s (List.mem_of_getElem? hk))
    exact ⟨_, stepInstance_of_step hk ht, fun u hu => (List.mem_or_eq_of_mem_set hu).elim (hms u) (· ▸ hi)⟩

/-- While every step keeps the invariant, every interleaving goes on. -/
theorem runInstances_inv (keep : ∀ s, StateInv s → ∃ t, step s = .next t ∧ StateInv t) (ks : List Nat) {ms : List State}
    (hms : ∀ m ∈ ms, StateInv m) : ∃ ms', runInstances ms ks = .next ms' ∧ ∀ s ∈ ms', StateInv s := by
  induction ks generalizing ms with
  | nil => exact ⟨ms, rfl, hms⟩
  | cons k ks ih =>
    obtain ⟨m, hm, hi⟩ := stepInstance_inv keep hms k
    obtain ⟨ms', h, hi'⟩ := ih hi
    exact ⟨ms', by rw [runInstances_cons hm, h], hi'⟩

/-- A run that goes on has a first step that goes on. -/
theorem run_succ_next {s u : State} {n : Nat} (h : Sys2Proof.core.run (n + 1) s = .next u) :
    ∃ t, step s = .next t ∧ Sys2Proof.core.run n t = .next u := by
  cases hs : step s with
  | next t => exact ⟨t, rfl, by rw [← run_succ hs, h]⟩
  | fault f => simp [Host.Core.run, Sys2Proof.core, hs] at h
  | refused r => simp [Host.Core.run, Sys2Proof.core, hs] at h

/-- A step adds receipts and takes none away. -/
theorem step_receipts_prefix {s t : State} (h : step s = .next t) : s.receipts <+: t.receipts := by
  cases step_cases h with
  | reset hr ht => subst ht; unfold resetEvent; split <;> simp
  | idleWait hr hp hc ht => subst ht; simp
  | command w cs hr hp hc ht => subst ht; simp
  | finWait hr hp he hh ht => subst ht; simp
  | fin hr hp he hh ht => subst ht; simp
  | run b hr hp he hi ht => subst ht; simp [outEvent_frame, input_frame (input_cases hi)]
  | resWait hr hp hh ht => subst ht; simp
  | deliver hr hp hh ht => subst ht; exact ⟨_, rfl⟩

/-- A longer run has every receipt of a shorter one. -/
theorem run_receipts_prefix {s t u : State} {n m : Nat} (hnm : n ≤ m) (ht : Sys2Proof.core.run n s = .next t)
    (hu : Sys2Proof.core.run m s = .next u) : t.receipts <+: u.receipts := by
  induction m generalizing s t n with
  | zero =>
    obtain rfl : n = 0 := by omega
    cases ht; cases hu; exact List.prefix_rfl
  | succ m ih =>
    obtain ⟨v, hv, hvu⟩ := run_succ_next hu
    cases n with
    | zero =>
      cases ht
      exact (step_receipts_prefix hv).trans (ih (t := v) (Nat.zero_le m) rfl hvu)
    | succ n =>
      rw [run_succ hv] at ht
      exact ih (by omega) ht hvu

end Sys2Proof.Machine
end

