-- ==== Sys2Proof/Laws/PerInstr.lean ====
section
/-! SUPPORT. Statements per instruction: the fields of an encoded word, read back one by one. -/

namespace Sys2Proof

/-- The three fields of a command word as it is put together (30_encoding.md R84). -/
theorem fields_of_append (c : BitVec 2) (z : BitVec 32) (l : BitVec 31) :
    opField (c ++ z ++ l) = c ∧ sizeField (c ++ z ++ l) = z ∧ lenField (c ++ z ++ l) = l := by
  refine ⟨?_, ?_, ?_⟩ <;> apply BitVec.eq_of_getLsbD_eq <;> intro i hi
  · simp only [opField, BitVec.getLsbD_extractLsb', BitVec.getLsbD_append]
    rw [if_neg (by omega), if_neg (by omega), show 63 + i - 31 - 32 = i by omega]
    simp [hi]
  · simp only [sizeField, BitVec.getLsbD_extractLsb', BitVec.getLsbD_append]
    rw [if_neg (by omega), if_pos (by omega)]
    simp [hi]
  · simp only [lenField, BitVec.getLsbD_extractLsb', BitVec.getLsbD_append]
    rw [if_pos (by omega)]
    simp [hi]

end Sys2Proof

namespace Sys2Proof.Laws.EncodedFields

/-- The `op` field of an encoded command names its operation, `size` holds its size modulo 2^32, and `len` its length modulo
2^31 (30_encoding.md R84, R86). -/
def Statement (i : Instr) : Prop :=
  opField (encode i) = i.op.code ∧ sizeField (encode i) = BitVec.ofInt 32 i.size ∧
    lenField (encode i) = BitVec.ofNat 31 i.len

theorem enc (size : Int) (len : Nat) : Statement (.enc size len) := fields_of_append _ _ _
theorem dec (size : Int) (len : Nat) : Statement (.dec size len) := fields_of_append _ _ _
theorem val (size : Int) (len : Nat) : Statement (.val size len) := fields_of_append _ _ _
theorem rsv3 (size : Int) (len : Nat) : Statement (.rsv3 size len) := fields_of_append _ _ _

end Sys2Proof.Laws.EncodedFields
end

