-- ==== Sys2Proof/Machine/CallText.lean ====
section
/-! DEFINITION. The written form of calls, command words and results (30_encoding.md R92). -/

namespace Sys2Proof.Machine

/-- The last `n` hexadecimal digits of a number. -/
def hexText (v : Nat) : Nat → String
  | 0 => ""
  | n + 1 => hexText (v / 16) n ++ String.singleton (Nat.digitChar (v % 16)).toUpper

/-- "The command word of a call is written as 17 hexadecimal digits" (R92). -/
def commandText (w : CmdWord) : String := hexText w.toNat 17

/-- The part of a call left of its beats: `ENC size, len`, `VAL len`, ... (R92). -/
def callText : Instr → String
  | .enc size len => "ENC " ++ toString size ++ ", " ++ toString len
  | .dec size len => "DEC " ++ toString size ++ ", " ++ toString len
  | .val _ len => "VAL " ++ toString len
  | .rsv3 size len => "RSV3 " ++ toString size ++ ", " ++ toString len

/-- `<result>`: `OK`, `ERR cause pos`, `TRUE` or `FALSE cause pos` (R92). -/
def resultText (op : Op) (r : ResWord) : String :=
  let why := " " ++ toString (resCause r).toNat ++ " " ++ toString (resPos r).toNat
  match op with
  | .val => if resVerdict r then "TRUE" else "FALSE" ++ why
  | .enc => if resErr r then "ERR" ++ why else "OK"
  | .dec => if resErr r then "ERR" ++ why else "OK"
  | .rsv3 => if resErr r then "ERR" ++ why else "OK"

/-- A beat of bytes: "four two-digit hexadecimal numbers joined by dots, first byte first" (R92). -/
def bytesText (bytes : List Byte) : String := ".".intercalate (bytes.map fun b => hexText b.toNat 2)

/-- One unit of a beat of text: itself if it is printable, else `\xHH`, or above 0xFF the `\u` form (R92), whose two braces
are the codes 123 and 125. -/
def unitText (u : Nat) : String :=
  if 0x20 ≤ u ∧ u ≤ 0x7E then String.singleton (Char.ofNat u)
  else if u ≤ 0xFF then "\\x" ++ hexText u 2
  else "\\u" ++ String.singleton (Char.ofNat 123) ++ hexText u (Nat.toDigits 16 u).length ++ String.singleton (Char.ofNat 125)

/-- A beat of text: "a string of five characters in double quotes, first character first" (R92). -/
def unitsText (units : List Nat) : String := "\"" ++ "".intercalate (units.map unitText) ++ "\""

/-- Beats behind a colon, where there are any (R92). -/
def beatsText (beats : List String) : String := if beats.isEmpty then "" else " : " ++ " ".intercalate beats

/-- A whole call: the beats it consumes left of `=>`, its result, and the beats it delivers (R92). -/
def callLine (i : Instr) (consumed : List String) (r : ResWord) (delivered : List String) : String :=
  callText i ++ beatsText consumed ++ " => " ++ resultText i.op r ++ beatsText delivered

end Sys2Proof.Machine
end

