-- ==== Sys2Proof/Tests/Slice0.lean ====
section
/-! SUPPORT. Tests of one word, one chunk or one step, with results from 95_test_vectors.md and the rules; and for every statement
with hypotheses a witness that meets them. -/

namespace Sys2Proof.Tests

open Sys2Proof Sys2Proof.Machine

/-! ## WellFormed (30_encoding.md R85) -/

theorem test_size_above_signed32_refused : (Instr.enc (2 ^ 31) 4).wellFormed = false := by decide
theorem test_size_below_signed32_refused : (Instr.dec (-(2 ^ 31) - 1) 4).wellFormed = false := by decide
theorem test_len_above_31_bits_refused : (Instr.val 0 (2 ^ 31)).wellFormed = false := by decide
theorem test_extremes_accepted : (Instr.rsv3 (-(2 ^ 31)) (2 ^ 31 - 1)).wellFormed = true := by decide

/-! ## Decode: words written out bit by bit from R84 and R86; the calls are those of 95_test_vectors.md section 2.8 -/

theorem test_decode_enc :
    decode (0b00#2 ++ 0b00000000000000000000000000000100#32 ++ 0b0000000000000000000000000000100#31) = .enc 4 4 := by decide
theorem test_decode_enc_negative_size :
    decode (0b00#2 ++ 0b11111111111111111111111111111100#32 ++ 0b0000000000000000000000000001000#31) = .enc (-4) 8 := by decide
theorem test_decode_dec :
    decode (0b01#2 ++ 0b00000000000000000000000000001010#32 ++ 0b0000000000000000000000000001010#31) = .dec 10 10 := by decide
theorem test_decode_val :
    decode (0b10#2 ++ 0b00000000000000000000000000000000#32 ++ 0b1111111111111111111111111111111#31) = .val 0 2147483647 := by
  decide
theorem test_decode_rsv3 :
    decode (0b11#2 ++ 0b11111111111111111111111111111111#32 ++ 0b1111111111111111111111111111111#31) =
      .rsv3 (-1) 2147483647 := by decide
theorem test_decode_number_of_66_bits_refused : decodeNumber (2 ^ 65) = .error .widerThanCommandWord := by decide
theorem test_encode_dec_all : encode (.decAll 85) = 0x08000002A80000055#65 := by decide
theorem test_command_text : commandText (encode (.dec (-5) 10)) = "0FFFFFFFD8000000A" := by decide

/-! ## Tables (30_encoding.md R80, R81) -/

theorem test_alphabet_ends : alpha 0 = 0x30 ∧ alpha 61 = 0x5A ∧ alpha 62 = 0x2E ∧ alpha 84 = 0x23 := by decide
theorem test_alphabet_beyond_84_has_no_value : alphabetRead 84 = some 0x23 ∧ alphabetRead 85 = none := by decide
theorem test_inverse_cells : inv 0x21 = 68 ∧ inv 0x7D = 80 ∧ inv 0x60 = 0xFF ∧ inv 0x80 = 0xFF := by decide
theorem test_lookup_keeps_high_bits : lookup 0x0048 = some 43 ∧ lookup 0x0148 = none ∧ lookup 0x10048 = none := by decide

/-! ## Division (95_test_vectors.md section 2.1) -/

theorem test_div_by_5 : divBy5 0x40000000#32 = 214748364#32 ∧ divBy5 0xFFFFFFFF#32 = 858993459#32 := by decide
theorem test_div_by_85 : divBy85 0x80000000#32 = 25264513#32 ∧ divBy85 0xFFFFFFFE#32 = 50529026#32 := by decide
theorem test_mul_shift : divBy85MulShift 0x864FD26F#32 = 26510331#32 ∧ divBy5MulShift 0xFFFFFFFE#32 = 858993458#32 := by decide
theorem test_remainders : rem85 7224#32 = 84#32 ∧ rem5 2147483647#32 = 2#32 := by decide

/-! ## Chunks (sections 2.2 and 2.4) -/

theorem test_enc_chunk_hello : encChunk 0x864FD26F#32 = 0x48656C6C6F#40 := by decide
theorem test_enc_chunk_signed_boundary : encChunk 0x80000000#32 = 0x46622F4D48#40 := by decide
theorem test_dec_chunk_hello : decChunk (lanes5 8 0x48656C6C6F) = .ok 0x864FD26F#32 := by decide
theorem test_dec_chunk_largest : decChunk (lanes5 8 0x256E536330) = .ok 0xFFFFFFFF#32 := by decide
theorem test_dec_chunk_smallest_out_of_range : decChunk (lanes5 8 0x256E536331) = .fail .outOfRange := by decide
theorem test_dec_chunk_character_before_range : decChunk (lanes5 8 0x2323202323) = .fail .badChar := by decide
theorem test_dec_chunk_wide_unit : decChunk (lanes5 16 0x01480065006C006C006F) = .fail .badChar := by decide

/-! ## The instructions, one step each

The states: `offered w` has one command on offer; `running` is a call in RUN. -/

/-- The reset state with one command word on offer. -/
def offered (w : CmdWord) : State := { State.reset with cmds := [w] }

/-- A call in RUN, with `total` chunks and these input beats on offer. -/
def running (op : Op) (size : BitVec 32) (len : BitVec 31) (total : BitVec 32) (ins : List InBeat) : State :=
  { State.reset with phase := .run, op := op, size := size, len := len, total := total, ins := ins }

/-- What a test reads of an answer. -/
def seen {α : Type} (f : State → α) : Answer → Option α
  | .next s => some (f s)
  | .fault _ => none
  | .refused _ => none

/-- The state as part 3 of 95_test_vectors.md writes it, with `TOTAL` before it: `TOTAL`, then
`(PHASE, IDX_IN, IDX_OUT, |Q|, FAIL, CAUSE, POS)`. -/
def summary (s : State) : List Nat :=
  [s.total.toNat, s.phase.code.toNat, s.idxIn.toNat, s.idxOut.toNat, s.q.length, s.fail.toNat, s.cause.code.toNat, s.pos.toNat]

/-- P1, step 1. -/
theorem test_enc_accepted : seen summary (step (offered 0x00000000400000008#65)) = some [2, 1, 0, 0, 0, 0, 0, 0] := by decide
/-- P5, call 4. -/
theorem test_enc_too_large : seen summary (step (offered 0x0333333347FFFFFFF#65)) = some [0, 1, 0, 0, 0, 1, 4, 0] := by decide
/-- P3, step 1. -/
theorem test_dec_accepted : seen summary (step (offered 0x0800000078000000F#65)) = some [3, 1, 0, 0, 0, 0, 0, 0] := by decide
/-- Section 2.7, `size` field -1. -/
theorem test_val_ignores_size : seen summary (step (offered 0x17FFFFFFF80000005#65)) = some [1, 1, 0, 0, 0, 0, 0, 0] := by decide
/-- P4, step 9. -/
theorem test_val_bad_length : seen summary (step (offered 0x10000000000000007#65)) = some [0, 1, 0, 0, 0, 1, 2, 0] := by decide
/-- P5, call 5. -/
theorem test_rsv3_accepted : seen summary (step (offered 0x18000000000000000#65)) = some [0, 1, 0, 0, 0, 1, 7, 0] := by decide

/-- The end of an RSV3 call, P5, call 5: the result word. -/
theorem test_rsv3_result :
    seen State.receipts (step { running .rsv3 0 0 0 [] with phase := .result, fail := true, cause := .badOp }) =
      some [⟨0x1700000000#37, []⟩] := by decide

/-- P3, step 3: chunk 1 has a bad character; the chunk before it is taken at the same edge. -/
theorem test_dec_bad_character :
    seen summary (step { running .dec 15 15 3 [0x576F722064] with idxIn := 1, q := [0x00864FD26F#40] }) =
      some [3, 1, 2, 1, 0, 1, 5, 5] := by decide

/-- Output beat 1 of an ENC call carries OUT at offsets 5 to 9 (20_memory.md R53, R55); its characters are those of P7. -/
theorem test_out_deliver_offsets :
    (deliverOut { running .enc 8 8 2 [] with idxOut := 1, q := [0x30724A7561#40] }).out =
      [(5, 0x30), (6, 0x72), (7, 0x4A), (8, 0x75), (9, 0x61)] := by decide

/-- P9: reset in the middle of a call. -/
theorem test_reset_in_run :
    seen summary (step { running .enc 8 8 2 [] with idxIn := 1, idxOut := 1, edges := [{ Edge.willing with rst := true }] }) =
      some [0, 0, 0, 0, 0, 0, 0, 0] := by decide

theorem test_result_text : resultText .dec 0x1500000005#37 = "ERR 5 5" ∧ resultText .val 0x0600000000#37 = "FALSE 6 0" ∧
    resultText .val 0x0800000000#37 = "TRUE" := by decide

/-- T2 as a call, and a beat of section 2.4 with a unit that is not printable. -/
theorem test_call_line :
    callLine (.enc 4 4) [bytesText [0x86, 0x4F, 0xD2, 0x6F]] 0x0800000000#37 [unitsText [0x48, 0x65, 0x6C, 0x6C, 0x6F]] =
      "ENC 4, 4 : 86.4F.D2.6F => OK : \"Hello\"" ∧ unitsText [0x48, 0x65, 0x0A, 0x6C, 0x6F] = "\"He\\x0Alo\"" := by decide

/-! ## Witnesses

For each statement with hypotheses a theorem that meets them all together; one per clause where a statement has several. -/

theorem witness_DecodeOfEncodeIsTheCommand : (Instr.enc (-(2 ^ 31)) (2 ^ 31 - 1)).wellFormed = true := by decide

theorem witness_StepRunsTheDecodedCommand :
    (offered 0x0800000050000000A#65).edge.rst = false ∧ (offered 0x0800000050000000A#65).phase = .idle ∧
      (offered 0x0800000050000000A#65).cmds ++ (offered 0x0800000050000000A#65).edge.newCmd.toList =
        [0x0800000050000000A#65] := by decide

/-- For the four acceptance statements. -/
theorem witness_CommandIsAccepted : (offered 0x18000000000000000#65).phase = .idle := by decide

/-- The first clause has no premise of its own; each of the other five has the row of section 2.5 at its boundary. -/
theorem witness_EncCheckAnswersTheFirstCause :
    (8 < 2 ^ 31 ∧ (-1 : Int) < 0) ∧ (0 < 2 ^ 31 ∧ (0 : Int) ≤ 1 ∧ ((0 : Nat) : Int) < 1) ∧
      (2147483647 < 2 ^ 31 ∧ (0 : Int) ≤ 2147483647 ∧ (2147483647 : Int) ≤ ((2147483647 : Nat) : Int) ∧
        (2147483647 : Int) % 4 ≠ 0) ∧
      ((0 : Int) ≤ 1717986920 ∧ (1717986920 : Int) ≤ ((2147483647 : Nat) : Int) ∧ (1717986920 : Int) % 4 = 0 ∧
        (maxInputLength Params.default : Int) < 1717986920) ∧
      ((0 : Int) ≤ 1717986916 ∧ (1717986916 : Int) ≤ ((1717986916 : Nat) : Int) ∧ (1717986916 : Int) % 4 = 0 ∧
        (1717986916 : Int) ≤ (maxInputLength Params.default : Int)) := by decide

theorem witness_DecCheckAnswersTheFirstCause :
    (0 < 2 ^ 31 ∧ (-1 : Int) < 0) ∧ ((0 : Int) ≤ 10 ∧ ((5 : Nat) : Int) < 10) ∧
      (2147483647 < 2 ^ 31 ∧ (0 : Int) ≤ 2147483647 ∧ (2147483647 : Int) ≤ ((2147483647 : Nat) : Int) ∧
        (2147483647 : Int) % 5 ≠ 0) ∧
      ((0 : Int) ≤ 2147483645 ∧ (2147483645 : Int) ≤ ((2147483647 : Nat) : Int) ∧ (2147483645 : Int) % 5 = 0) := by decide

theorem witness_ValCheckAnswersByTheLength :
    (2147483647 < 2 ^ 31 ∧ 2147483647 % 5 ≠ 0) ∧ (2147483645 < 2 ^ 31 ∧ 2147483645 % 5 = 0) := by decide

theorem witness_CommandWaitsWhileACallRuns :
    (running .enc 4 4 1 []).phase ≠ .idle ∧ { running .enc 4 4 1 [] with phase := .result }.phase ≠ .idle := by decide

theorem witness_EncBeatAppendsItsChunk :
    (running .enc 4 4 1 [0xAB864FD26F]).op = .enc ∧ (running .enc 4 4 1 [0xAB864FD26F]).ins = [0xAB864FD26F] := by decide

/-- The three clauses: drained, decoded, failed. -/
theorem witness_DecBeatDecodesOrFailsOrDrains :
    ((running .dec 5 5 1 [0x2323232323]).op = .dec ∧ (running .dec 5 5 1 [0x2323232323]).ins = [0x2323232323] ∧
      { running .dec 5 5 1 [0x2323232323] with fail := true }.fail = true) ∧
    ((running .dec 5 5 1 [0x256E536330]).fail = false ∧
      decChunk (lanes5 (running .dec 5 5 1 [0x256E536330]).par.charW 0x256E536330) = .ok 0xFFFFFFFF#32) ∧
    ((running .dec 5 5 1 [0x256E536331]).fail = false ∧
      decChunk (lanes5 (running .dec 5 5 1 [0x256E536331]).par.charW 0x256E536331) = .fail .outOfRange) := by decide

theorem witness_ValBeatChecksWithoutOutput :
    ((running .val 0 5 1 [0x2323232323]).op = .val ∧ (running .val 0 5 1 [0x2323232323]).ins = [0x2323232323] ∧
      { running .val 0 5 1 [0x2323232323] with fail := true }.fail = true) ∧
    ((running .val 0 5 1 [0x48656C6C6F]).fail = false ∧
      decChunk (lanes5 (running .val 0 5 1 [0x48656C6C6F]).par.charW 0x48656C6C6F) = .ok 0x864FD26F#32) ∧
    ((running .val 0 5 1 [0x48656C206F]).fail = false ∧
      decChunk (lanes5 (running .val 0 5 1 [0x48656C206F]).par.charW 0x48656C206F) = .fail .badChar) := by decide

theorem witness_RsvBeatStopsTheModel :
    (running .rsv3 0 0 1 [0]).op = .rsv3 ∧ (running .rsv3 0 0 1 [0]).ins = [0] := by decide

/-- An edge in RUN with a beat on offer and one in `Q`: both transfer. -/
def both : State := { running .enc 8 8 2 [0xB559F75B] with idxIn := 1, q := [0x48656C6C6F#40] }

/-- The same with the consumer unwilling and `in_ready` held at 0. -/
def neither : State := { both with edges := [{ Edge.willing with outReady := false, inHold := true }] }

/-- The same with the consumer unwilling only. -/
def onlyIn : State := { both with edges := [{ Edge.willing with outReady := false }] }

/-- The same with `in_ready` held at 0 only. -/
def onlyOut : State := { both with edges := [{ Edge.willing with inHold := true }] }

theorem witness_RunEdgeTransfersInThenOut :
    (both.edge.rst = false ∧ both.phase = .run ∧ finishEnabled (arrive both) = false ∧
      inTransfers both.edge (arrive both) = true ∧ outTransfers both.edge (arrive both) = true ∧
      inAccept (arrive both) = .next (encBeat 0xB559F75B (takeBeat both))) ∧
    (neither.edge.rst = false ∧ neither.phase = .run ∧ finishEnabled (arrive neither) = false ∧
      inTransfers neither.edge (arrive neither) = false ∧ outTransfers neither.edge (arrive neither) = false) ∧
    (finishEnabled (arrive onlyIn) = false ∧ inTransfers onlyIn.edge (arrive onlyIn) = true ∧
      outTransfers onlyIn.edge (arrive onlyIn) = false ∧
      inAccept (arrive onlyIn) = .next (encBeat 0xB559F75B (takeBeat (arrive onlyIn)))) ∧
    (finishEnabled (arrive onlyOut) = false ∧ inTransfers onlyOut.edge (arrive onlyOut) = false ∧
      outTransfers onlyOut.edge (arrive onlyOut) = true) :=
  ⟨⟨by decide, by decide, by decide, by decide, by decide, rfl⟩, by decide, ⟨by decide, by decide, by decide, rfl⟩, by decide⟩

theorem witness_OutDeliverWritesOneChunkOfOut :
    both.q = [0x48656C6C6F#40] ∧ (unitsPerOutBeat both.op * both.idxOut.toNat ≤ 4 ∧
      4 < unitsPerOutBeat both.op * (both.idxOut.toNat + 1)) ∧ unitsPerOutBeat both.op * (both.idxOut.toNat + 1) ≤ 5 := by decide

theorem witness_InAcceptAndOutDeliverCommute :
    both.q ≠ [] ∧ inAccept both = .next (encBeat 0xB559F75B (takeBeat both)) := ⟨by decide, rfl⟩

/-- A call with all beats consumed and delivered: FINISH is enabled. -/
def finished : State :=
  { running .enc 4 4 1 [] with idxIn := 1, idxOut := 1, out := [(0, 0x48), (1, 0x65), (2, 0x6C), (3, 0x6C), (4, 0x6F)] }

theorem witness_FinishMovesToResult :
    finished.edge.rst = false ∧ finished.phase = .run ∧ finished.idxIn = finished.total ∧ finished.q = [] ∧
      finished.edge.finHold = false ∧ { finished with edges := [{ Edge.willing with finHold := true }] }.edge.finHold = true := by
  decide

/-- The result word is on offer. -/
def offering : State := { finished with phase := .result }

theorem witness_ResultDeliverEndsTheCall :
    offering.edge.rst = false ∧ offering.phase = .result ∧ offering.edge.resReady = true ∧
      { offering with edges := [{ Edge.willing with resReady := false }] }.edge.resReady = false := by decide

/-- Reset with and without the agents. -/
theorem witness_ResetAbortsTheCall :
    { both with edges := [{ Edge.willing with rst := true }] }.edge.rst = true ∧
      { both with edges := [{ Edge.willing with rst := true }] }.edge.withdraw = false ∧
      { both with edges := [{ Edge.willing with rst := true, withdraw := true }] }.edge.withdraw = true := by decide

/-- A call starved of its second beat (P10). -/
def starved : State := { running .dec 10 10 2 [] with idxIn := 1, idxOut := 1, out := [(0, 0x86), (1, 0x4F), (2, 0xD2), (3, 0x6F)] }

theorem witness_BlockWaitsWithoutAnOffer :
    (State.reset.edge.rst = false ∧ State.reset.phase = .idle ∧ State.reset.cmds = [] ∧ State.reset.edge.newCmd = none) ∧
      (starved.edge.rst = false ∧ starved.phase = .run ∧ starved.q = [] ∧ starved.idxIn ≠ starved.total ∧ starved.ins = [] ∧
        starved.edge.newBeat = none) := by decide

/-! ### States of the invariant: one in RUN with a beat in `Q`, one in RESULT, one in IDLE -/

theorem both_inv : StateInv both := by constructor <;> decide
theorem neither_inv : StateInv neither := by constructor <;> decide
theorem offering_inv : StateInv offering := by constructor <;> decide
theorem starved_inv : StateInv starved := by constructor <;> decide

/-- A DEC call that failed in chunk 1 of 3 and has drained the rest (P3, step 6). -/
def failed : State :=
  { running .dec 15 15 3 [] with
    phase := .result, idxIn := 3, idxOut := 1, fail := true, cause := .badChar, pos := 5
    out := [(0, 0x86), (1, 0x4F), (2, 0xD2), (3, 0x6F)] }

theorem failed_inv : StateInv failed := by constructor <;> decide

/-- For the statements over every state of the invariant, TheMachineNeverStops among them. -/
theorem witness_TheInvariantIsKept : StateInv both ∧ StateInv offering ∧ StateInv failed := ⟨both_inv, offering_inv, failed_inv⟩

/-- A step of each clause: reset, IDLE, RUN, RESULT. -/
theorem witness_PhasesFollowInOneOrder :
    seen State.phase (step { both with edges := [{ Edge.willing with rst := true }] }) = some .idle ∧
      seen State.phase (step (offered 0x00000000200000004#65)) = some .run ∧ seen State.phase (step finished) = some .result ∧
      seen State.phase (step offering) = some .idle := by decide

/-- A failed call whose remaining beat would itself fail. -/
theorem witness_TheFirstFailureIsFinal :
    { failed with phase := .run, idxIn := 2, ins := [0x2323232323] }.phase ≠ .idle ∧
      { failed with phase := .run, idxIn := 2, ins := [0x2323232323] }.edge.rst = false ∧
      { failed with phase := .run, idxIn := 2, ins := [0x2323232323] }.fail = true ∧
      seen summary (step { failed with phase := .run, idxIn := 2, ins := [0x2323232323] }) =
        some [3, 1, 3, 1, 0, 1, 5, 5] := by decide

theorem witness_CommandRegistersAreConstantDuringACall :
    both.edge.rst = false ∧ ¬(both.phase = .idle ∧ both.phase = .run) ∧ seen State.phase (step both) = some .run := by decide

/-- After a failed call and after reset, the same command is on offer. -/
theorem witness_NothingSurvivesIntoTheNextCall :
    (offered 0x08000000280000005#65).phase = .idle ∧
      { failed with phase := .idle, out := [], cmds := [0x08000000280000005#65] }.phase = .idle ∧
      { failed with phase := .idle, out := [], cmds := [0x08000000280000005#65] }.par = (offered 0x08000000280000005#65).par ∧
      { failed with phase := .idle, out := [], cmds := [0x08000000280000005#65] }.cmds = (offered 0x08000000280000005#65).cmds ∧
      { failed with phase := .idle, out := [], cmds := [0x08000000280000005#65] }.ins = (offered 0x08000000280000005#65).ins ∧
      { failed with phase := .idle, out := [], cmds := [0x08000000280000005#65] }.out = (offered 0x08000000280000005#65).out ∧
      { failed with phase := .idle, out := [], cmds := [0x08000000280000005#65] }.receipts =
        (offered 0x08000000280000005#65).receipts ∧
      { failed with phase := .idle, out := [], cmds := [0x08000000280000005#65] }.edges = (offered 0x08000000280000005#65).edges ∧
      (offered 0x08000000280000005#65).edge.rst = false ∧ (arrive (offered 0x08000000280000005#65)).cmds ≠ [] := by decide

theorem witness_RaisedOutputStaysRaised :
    StateInv neither ∧ outValid neither.edge (arrive neither) = true ∧ outTransfers neither.edge (arrive neither) = false ∧
      seen (fun t => t.edge.rst) (step neither) = some false := ⟨neither_inv, by decide, by decide, by decide⟩

/-- Each port at 1 in some state of the invariant. -/
theorem witness_PortsFollowThePhase :
    (StateInv both ∧ inReady both.edge both = true ∧ outValid both.edge both = true) ∧
      (StateInv offering ∧ resValid offering.edge offering = true) ∧ cmdReady State.reset.edge State.reset = true :=
  ⟨⟨both_inv, by decide, by decide⟩, ⟨offering_inv, by decide⟩, by decide⟩

/-- A result with `err` 1 and one with `verdict` 1. -/
theorem witness_ResultWordTellsTheOutcome :
    (StateInv failed ∧ resErr failed.result = true) ∧ (StateInv offering ∧ resVerdict offering.result = true ∧
      resCause offering.result ≠ 5 ∧ resCause offering.result ≠ 6) :=
  ⟨⟨failed_inv, by decide⟩, offering_inv, by decide, by decide, by decide⟩

/-- The end of a VAL call whose chunk was out of range (P4, step 7). -/
def invalid : State := { running .val 0 5 1 [] with phase := .result, idxIn := 1, fail := true, cause := .outOfRange }

/-- The end of an RSV3 call. -/
def reserved : State := { running .rsv3 0 0 0 [] with phase := .result, fail := true, cause := .badOp }

/-- The end of a DEC call that succeeded. -/
def decoded : State :=
  { running .dec 5 5 1 [] with phase := .result, idxIn := 1, idxOut := 1, out := [(0, 0x86), (1, 0x4F), (2, 0xD2), (3, 0x6F)] }

/-- Each clause: an ENC call, a DEC call that succeeded, one that failed in a chunk, a VAL and an RSV3 call, a failed check. -/
theorem witness_BeatCountsWhenTheResultIsOffered :
    (StateInv offering ∧ offering.phase = .result ∧ offering.op = .enc) ∧
      (StateInv decoded ∧ decoded.phase = .result ∧ decoded.op = .dec ∧ decoded.fail = false) ∧
      (StateInv failed ∧ failed.phase = .result ∧ failed.op = .dec ∧ failed.cause = .badChar) ∧
      (StateInv invalid ∧ invalid.phase = .result ∧ invalid.op = .val) ∧
      (StateInv reserved ∧ reserved.phase = .result ∧ reserved.op = .rsv3 ∧ reserved.check.fail = true) := by
  refine ⟨⟨offering_inv, by decide, by decide⟩, ⟨by constructor <;> decide, by decide, by decide, by decide⟩,
    ⟨failed_inv, by decide, by decide, by decide⟩, ⟨by constructor <;> decide, by decide, by decide⟩,
    ⟨by constructor <;> decide, by decide, by decide, by decide⟩⟩

theorem witness_OutStaysCanonical :
    Memory.wf both.out = true ∧ seen (fun t => t.out.length) (step both) = some 5 := by decide

/-- The step of the second clause: a receipt is added. -/
theorem witness_ParametersAreFixedAndResultsKept :
    seen (fun t => t.receipts.length) (step offering) = some 1 ∧ seen (fun t => t.receipts.length) (step both) = some 0 := by
  decide

/-! ### Whole calls -/

/-- ENC 4, 4 on the bytes of `Hello` (T2), offered with one beat more than the call takes. -/
def encOffered : State := { offered (encode (.enc (4#32).toInt 4)) with ins := [0x864FD26F, 7] }

theorem witness_EncCallEndsWithItsEncoding :
    StateInv encOffered ∧ encOffered.phase = .idle ∧ encOffered.noReset ∧ [0x86#8, 0x4F#8, 0xD2#8, 0x6F#8].length < 2 ^ 31 ∧
      encOffered.cmds = [encode (.enc (4#32).toInt [0x86#8, 0x4F#8, 0xD2#8, 0x6F#8].length)] ∧
      encOffered.ins = encBeats [0x86#8, 0x4F#8, 0xD2#8, 0x6F#8] 0 (encCheck encOffered.par (4#32).toInt 4).total.toNat ++ [7] :=
  ⟨by constructor <;> decide, by decide, by simp [State.noReset, encOffered, offered, State.reset], by decide, by decide, by decide⟩

/-- DEC 5, 5 on `Hello` (T3). -/
def decOffered : State := { offered (encode (.dec (5#32).toInt 5)) with ins := [0x48656C6C6F] }

theorem witness_DecCallEndsWithItsDecoding :
    StateInv decOffered ∧ decOffered.phase = .idle ∧ decOffered.noReset ∧ [0x48, 0x65, 0x6C, 0x6C, 0x6F].length < 2 ^ 31 ∧
      (∀ u ∈ [0x48, 0x65, 0x6C, 0x6C, 0x6F], u < 2 ^ decOffered.par.charW) ∧
      decOffered.cmds = [encode (.dec (5#32).toInt [0x48, 0x65, 0x6C, 0x6C, 0x6F].length)] ∧
      decOffered.ins = decBeats decOffered.par.charW [0x48, 0x65, 0x6C, 0x6C, 0x6F] 0 (decCheck (5#32).toInt 5).total.toNat ++ [] :=
  ⟨by constructor <;> decide, by decide, by simp [State.noReset, decOffered, offered, State.reset], by decide, by decide, by decide,
    by decide⟩

/-- VAL 5 on `#####` (T5), with `size` field -1. -/
def valOffered : State := { offered (encode (.val (-1#32).toInt 5)) with ins := [0x2323232323] }

theorem witness_ValCallEndsWithItsVerdict :
    StateInv valOffered ∧ valOffered.phase = .idle ∧ valOffered.noReset ∧ [0x23, 0x23, 0x23, 0x23, 0x23].length < 2 ^ 31 ∧
      (∀ u ∈ [0x23, 0x23, 0x23, 0x23, 0x23], u < 2 ^ valOffered.par.charW) ∧
      valOffered.cmds = [encode (.val (-1#32).toInt [0x23, 0x23, 0x23, 0x23, 0x23].length)] ∧
      valOffered.ins = decBeats valOffered.par.charW [0x23, 0x23, 0x23, 0x23, 0x23] 0 (valCheck 5).total.toNat ++ [] :=
  ⟨by constructor <;> decide, by decide, by simp [State.noReset, valOffered, offered, State.reset], by decide, by decide, by decide,
    by decide⟩

theorem witness_RsvCallEndsWithBadOp :
    StateInv (offered (encode (.rsv3 (0#32).toInt (0#31).toNat))) ∧
      (offered (encode (.rsv3 (0#32).toInt (0#31).toNat))).phase = .idle ∧
      (offered (encode (.rsv3 (0#32).toInt (0#31).toNat))).noReset ∧
      (offered (encode (.rsv3 (0#32).toInt (0#31).toNat))).cmds = [encode (.rsv3 (0#32).toInt (0#31).toNat)] :=
  ⟨by constructor <;> decide, by decide, by simp [State.noReset, offered, State.reset], by decide⟩

/-- A run of two instances, a number beyond them among its edges; a call of each operation; and the instances of
`deliversAmongOthers`: the call stands second, beside a failed call and one that is starved. -/
theorem witness_InstancesAreIndependent :
    (∃ ms', runInstances [both, offering] [0, 1, 7, 0] = .next ms') ∧
      ((StateInv encOffered ∧ encOffered.phase = .idle ∧ encOffered.noReset) ∧ [0x86#8, 0x4F#8, 0xD2#8, 0x6F#8].length < 2 ^ 31 ∧
        encOffered.cmds = [encode (.enc (4#32).toInt [0x86#8, 0x4F#8, 0xD2#8, 0x6F#8].length)] ∧
        encOffered.ins = encBeats [0x86#8, 0x4F#8, 0xD2#8, 0x6F#8] 0 (encCheck encOffered.par (4#32).toInt 4).total.toNat ++ [7]) ∧
      ((StateInv decOffered ∧ decOffered.phase = .idle ∧ decOffered.noReset) ∧ [0x48, 0x65, 0x6C, 0x6C, 0x6F].length < 2 ^ 31 ∧
        (∀ u ∈ [0x48, 0x65, 0x6C, 0x6C, 0x6F], u < 2 ^ decOffered.par.charW) ∧
        decOffered.cmds = [encode (.dec (5#32).toInt [0x48, 0x65, 0x6C, 0x6C, 0x6F].length)] ∧
        decOffered.ins = decBeats decOffered.par.charW [0x48, 0x65, 0x6C, 0x6C, 0x6F] 0 (decCheck (5#32).toInt 5).total.toNat ++ []) ∧
      ((StateInv valOffered ∧ valOffered.phase = .idle ∧ valOffered.noReset) ∧ [0x23, 0x23, 0x23, 0x23, 0x23].length < 2 ^ 31 ∧
        (∀ u ∈ [0x23, 0x23, 0x23, 0x23, 0x23], u < 2 ^ valOffered.par.charW) ∧
        valOffered.cmds = [encode (.val (-1#32).toInt [0x23, 0x23, 0x23, 0x23, 0x23].length)] ∧
        valOffered.ins = decBeats valOffered.par.charW [0x23, 0x23, 0x23, 0x23, 0x23] 0 (valCheck 5).total.toNat ++ []) ∧
      ((offered (encode (.rsv3 (0#32).toInt (0#31).toNat))).cmds = [encode (.rsv3 (0#32).toInt (0#31).toNat)]) ∧
      ([failed, encOffered, starved][1]? = some encOffered ∧ (∀ m ∈ [failed, encOffered, starved], StateInv m) ∧
        4 ≤ [0, 1, 1, 2, 1, 0, 1].count 1) := by
  obtain ⟨e1, e2, e3, e4, e5, e6⟩ := witness_EncCallEndsWithItsEncoding
  obtain ⟨d1, d2, d3, d4, d5, d6, d7⟩ := witness_DecCallEndsWithItsDecoding
  obtain ⟨v1, v2, v3, v4, v5, v6, v7⟩ := witness_ValCallEndsWithItsVerdict
  refine ⟨⟨_, rfl⟩, ⟨⟨e1, e2, e3⟩, e4, e5, e6⟩, ⟨⟨d1, d2, d3⟩, d4, d5, d6, d7⟩, ⟨⟨v1, v2, v3⟩, v4, v5, v6, v7⟩, by decide, rfl, ?_, by decide⟩
  simp only [List.mem_cons, List.not_mem_nil, or_false, forall_eq_or_imp, forall_eq]
  exact ⟨failed_inv, e1, starved_inv⟩

/-! ### Tables, chunks and laws -/

/-- A code outside the alphabet, for the second clause; a lookup that finds, for the last. -/
theorem witness_InverseTableInvertsTheAlphabet : (∀ d, alpha d ≠ 0x7C#8) ∧ lookup 0x23 = some 84 := by decide

theorem witness_LanesCarryTheUnitsInOrder :
    0x0148 < 2 ^ 16 ∧ 0x0065 < 2 ^ 16 ∧ 0x006C < 2 ^ 16 ∧ 0x006F < 2 ^ 16 ∧ 0xFFFF < 2 ^ 16 := by decide

/-- A chunk with a bad character; chunks at the two sides of the range. -/
theorem witness_ChunkFailsByCharacterThenByRange :
    badChar ⟨0x23, 0x23, 0x20, 0x23, 0x23⟩ = true ∧
      (digitsOf ⟨0x25, 0x6E, 0x53, 0x63, 0x30⟩ = some ⟨82, 23, 54, 12, 0⟩ ∧ digitsValue ⟨82, 23, 54, 12, 0⟩ < 2 ^ 32) ∧
      (digitsOf ⟨0x25, 0x6E, 0x53, 0x63, 0x31⟩ = some ⟨82, 23, 54, 12, 1⟩ ∧ 2 ^ 32 ≤ digitsValue ⟨82, 23, 54, 12, 1⟩) := by decide

/-- One foreign unit at each position. -/
theorem witness_ForeignUnitFailsTheChunk :
    lookup 0x20 = none ∧ lookup 0x5F = none ∧ lookup 0x7F = none ∧ lookup 0x80 = none ∧ lookup 0x0148 = none := by decide

theorem witness_DecodingUndoesEncoding :
    Params.default.wf = true ∧ [0x86#8, 0x4F#8, 0xD2#8, 0x6F#8].length % 4 = 0 ∧
      [0x86#8, 0x4F#8, 0xD2#8, 0x6F#8].length ≤ maxInputLength Params.default := by decide

/-- `hello` (95_test_vectors.md section 2.10). -/
theorem witness_EncodingUndoesDecoding :
    Params.default.wf = true ∧ [0x68, 0x65, 0x6C, 0x6C, 0x6F].length < 2 ^ 31 ∧
      4 * [0x68, 0x65, 0x6C, 0x6C, 0x6F].length / 5 ≤ maxInputLength Params.default ∧
      isValidCall [0x68, 0x65, 0x6C, 0x6C, 0x6F] [0x68, 0x65, 0x6C, 0x6C, 0x6F].length = some ⟨true, .none, 0⟩ := by decide

/-- One text on each side: `hello`, and a text of four units. -/
theorem witness_ValidityCheckerAgreesWithDecoder :
    [0x68, 0x65, 0x6C, 0x6C, 0x6F].length < 2 ^ 31 ∧
      decodeCall [0x68, 0x65, 0x6C, 0x6C, 0x6F] [0x68, 0x65, 0x6C, 0x6C, 0x6F].length
        [0x68, 0x65, 0x6C, 0x6C, 0x6F].length = .returns [0x35, 0x6A, 0x58, 0x75] ∧
      decodeCall [0x30, 0x30, 0x30, 0x30] [0x30, 0x30, 0x30, 0x30].length [0x30, 0x30, 0x30, 0x30].length =
        .raises .sizeNotMult 0 := by decide

theorem witness_OutputLengthFollowsTheSize :
    7 < 2 ^ 31 ∧
      encodeCall Params.default [1, 2, 3, 4, 0xAA, 0xBB, 0xCC] 4 7 = .returns [0x30, 0x72, 0x4A, 0x75, 0x61] ∧
      decodeCall [0x48, 0x65, 0x6C, 0x6C, 0x6F, 0x7A, 0x7A] 5 7 = .returns [0x86, 0x4F, 0xD2, 0x6F] := by decide

theorem witness_OnlyWholeChunksSucceed : 8 < 2 ^ 31 ∧ (6 : Int) % 4 ≠ 0 ∧ (6 : Int) % 5 ≠ 0 := by decide

theorem witness_CallsDistributeOverWholeChunks :
    (Params.default.wf = true ∧ 4 + 4 ≤ maxInputLength Params.default ∧
      encodeCall Params.default [0x86, 0x4F, 0xD2, 0x6F] 4 4 = .returns [0x48, 0x65, 0x6C, 0x6C, 0x6F] ∧
      encodeCall Params.default [0xB5, 0x59, 0xF7, 0x5B] 4 4 = .returns [0x57, 0x6F, 0x72, 0x6C, 0x64]) ∧
    (5 + 5 < 2 ^ 31 ∧ decodeCall [0x48, 0x65, 0x6C, 0x6C, 0x6F] 5 5 = .returns [0x86, 0x4F, 0xD2, 0x6F] ∧
      decodeCall [0x57, 0x6F, 0x72, 0x6C, 0x64] 5 5 = .returns [0xB5, 0x59, 0xF7, 0x5B]) := by decide

end Sys2Proof.Tests
end

section
/-! What a step does to the parameters (00_scope.md R5) and to the results delivered (40_call_protocol.md R118, R122). -/

namespace Sys2Proof.Machine

@[simp] theorem resetEvent_par (e : Edge) (s : State) : (resetEvent e s).par = s.par := by
  unfold resetEvent; split <;> rfl

@[simp] theorem resetEvent_receipts (e : Edge) (s : State) : (resetEvent e s).receipts = s.receipts := by
  unfold resetEvent; split <;> rfl

/-- The result word is made of the registers, and what an edge newly offers does not touch them. -/
@[simp] theorem arrive_result (s : State) : (arrive s).result = s.result := rfl

/-- RES-DELIVER adds one receipt, with the result word of the registers (40_call_protocol.md R118). -/
theorem deliverResult_adds_receipt (s : State) :
    ∃ r, (deliverResult s).receipts = s.receipts ++ [r] ∧ r.res = s.result :=
  ⟨_, deliverResult_receipts s, rfl⟩

/-- An edge in RUN, its input side and then its output side, keeps the parameters and the receipts. -/
theorem runSides_par_receipts {s b : State} (hi : BeatCase (arrive s) b ∨ b = arrive s) :
    (outEvent s.edge (arrive s) b).par = s.par ∧ (outEvent s.edge (arrive s) b).receipts = s.receipts := by
  obtain ⟨-, -, -, -, -, hpar, hrec, -⟩ := input_frame hi
  obtain ⟨-, -, -, -, -, opar, orec, -⟩ := outEvent_frame s.edge (arrive s) b
  exact ⟨opar.trans hpar, orec.trans hrec⟩

/-- No step writes a parameter (00_scope.md R5, log entry 3). -/
theorem step_keeps_par {s t : State} (h : step s = .next t) : t.par = s.par := by
  cases step_cases h with
  | reset hr ht => simp [ht]
  | idleWait hr hp hc ht => simp [ht]
  | command w cs hr hp hc ht => simp [ht]
  | finWait hr hp he hh ht => simp [ht]
  | fin hr hp he hh ht => simp [ht]
  | run b hr hp he hi ht => rw [ht]; exact (runSides_par_receipts (input_cases hi)).1
  | resWait hr hp hh ht => simp [ht]
  | deliver hr hp hh ht => simp [ht]

/-- Only RES-DELIVER adds to the receipts; every other event leaves them as they are. -/
theorem step_receipts_cases {s t : State} (h : step s = .next t) : t.receipts = s.receipts ∨
    (s.phase = .result ∧ t = deliverResult (arrive s)) := by
  cases step_cases h with
  | reset hr ht => exact .inl (by simp [ht])
  | idleWait hr hp hc ht => exact .inl (by simp [ht])
  | command w cs hr hp hc ht => exact .inl (by simp [ht])
  | finWait hr hp he hh ht => exact .inl (by simp [ht])
  | fin hr hp he hh ht => exact .inl (by simp [ht])
  | run b hr hp he hi ht => rw [ht]; exact .inl (runSides_par_receipts (input_cases hi)).2
  | resWait hr hp hh ht => exact .inl (by simp [ht])
  | deliver hr hp hh ht => exact .inr ⟨hp, ht⟩

/-- Settles O37: a parameter is written by no event, and a receipt is added by RES-DELIVER alone. -/
theorem parametersAreFixedAndResultsKept : Obligations.ParametersAreFixedAndResultsKept := by
  unfold Obligations.ParametersAreFixedAndResultsKept
  intro s t h
  refine ⟨step_keeps_par h, ?_⟩
  obtain hkept | ⟨hp, rfl⟩ := step_receipts_cases h
  · exact .inl hkept
  · obtain ⟨r, hadd, hres⟩ := deliverResult_adds_receipt (arrive s)
    exact .inr ⟨r, hadd, hp, deliverResult_phase _, hres⟩

end Sys2Proof.Machine
end

section
/-! The invariant of the state over a step (10_state.md R20 to R37, 40_call_protocol.md R112, 60_exceptions.md R230). -/

namespace Sys2Proof.Machine

/-- The check of RSV3 answers no chunks (30_encoding.md R87), so during its call `TOTAL` is 0. -/
theorem total_zero_of_rsv3 {s : State} (h : StateInv s) (hp : s.phase ≠ .idle) (hop : s.op = .rsv3) : s.total = 0 := by
  rw [h.total_checked hp, State.check, hop]
  rfl

/-- No input beat is consumed under RSV3: "`OP = RSV3` cannot occur here" (40_call_protocol.md R115). -/
theorem op_ne_rsv3_of_inTransfers {e : Edge} {s : State} (h : StateInv s) (ht : inTransfers e s = true) : s.op ≠ .rsv3 := by
  intro hop
  obtain ⟨hp, hlt, -⟩ := (inTransfers_iff e s).1 ht
  rw [total_zero_of_rsv3 h (by simp [hp]) hop] at hlt
  exact BitVec.not_lt_zero hlt

/-- An edge in IDLE never stops: every command has a meaning. -/
theorem idleEvent_next (s : State) : ∃ t, idleEvent s = .next t := by
  unfold idleEvent
  split
  · exact ⟨_, rfl⟩
  · exact ⟨_, exec_eq _ _⟩

/-- An edge in RUN stops only at a beat that `OP` has no rule for (40_call_protocol.md R115, log entry 8). -/
theorem runEvent_next {e : Edge} {s : State} (h : inTransfers e s = true → s.op ≠ .rsv3) : ∃ t, runEvent e s = .next t := by
  have input : ∃ b, (if inTransfers e s then inAccept s else .next s) = .next b := by
    split
    · next hin => exact inAccept_next (h hin)
    · exact ⟨s, rfl⟩
  unfold runEvent
  split
  · exact ⟨_, rfl⟩
  · obtain ⟨b, hb⟩ := input
    exact ⟨outEvent e s b, by rw [hb]⟩

/-- A step from a state of the invariant answers a next state. -/
theorem step_next {s : State} (h : StateInv s) : ∃ t, step s = .next t := by
  unfold step edgeEvent
  split
  · exact ⟨_, rfl⟩
  · split
    · exact idleEvent_next _
    · exact runEvent_next (op_ne_rsv3_of_inTransfers (arrive_inv h))
    · exact ⟨_, rfl⟩

/-- The input side of an edge in RUN keeps the invariant, and the call stays in RUN. -/
theorem input_inv {s b : State} (h : StateInv s) (hp : s.phase = .run)
    (hi : (inTransfers s.edge (arrive s) = true ∧ inAccept (arrive s) = .next b) ∨
      (inTransfers s.edge (arrive s) = false ∧ b = arrive s)) : StateInv b ∧ b.phase = .run := by
  obtain ⟨hin, hb⟩ | ⟨-, rfl⟩ := hi
  · obtain ⟨-, hlt, hroom, -⟩ := (inTransfers_iff _ _).1 hin
    exact inAccept_inv (arrive_inv h) hp (BitVec.lt_def.1 hlt) hroom (inAccept_cases hb)
  · exact ⟨arrive_inv h, hp⟩

/-- The output side of an edge in RUN keeps the invariant: a beat that the ports showed in `s` is still in `Q`. -/
theorem outEvent_inv {e : Edge} {s t : State} (h : StateInv t) (hp : t.phase = .run) (hq : s.q ≠ [] → t.q ≠ []) :
    StateInv (outEvent e s t) := by
  obtain ⟨-, heq⟩ | ⟨-, hv, heq⟩ | ⟨-, -, heq⟩ := outEvent_cases e s t <;> rw [heq]
  · exact deliverOut_inv h hp
  · exact holdOut_inv h (hq ((outValid_iff e s).1 hv).1)
  · exact h

/-- Every event keeps the invariant. -/
theorem step_keeps_inv {s t : State} (h : StateInv s) (hst : step s = .next t) : StateInv t := by
  have ha : StateInv (arrive s) := arrive_inv h
  cases step_cases hst with
  | reset hr ht => rw [ht]; exact resetEvent_inv _ _ ha.parameters
  | idleWait hr hp hc ht => rwa [ht]
  | command w cs hr hp hc ht => rw [ht]; exact acceptCommand_inv (arrive s) ha.parameters (ha.out_between_calls hp) _ _ _
  | finWait hr hp he hh ht => rwa [ht]
  | fin hr hp he hh ht =>
    obtain ⟨-, hidx, hq⟩ := (finishEnabled_iff _).1 he
    rw [ht]; exact finish_inv ha hp hidx hq
  | run b hr hp he hi ht =>
    obtain ⟨hb, hbp⟩ := input_inv h hp hi
    obtain ⟨-, -, -, -, -, -, -, -, ⟨l, hq⟩, -⟩ := input_frame (input_cases hi)
    rw [ht]; exact outEvent_inv hb hbp (by rw [hq]; exact List.append_ne_nil_of_left_ne_nil · l)
  | resWait hr hp hh ht => rwa [ht]
  | deliver hr hp hh ht => rw [ht]; exact deliverResult_inv ha hp

/-- Settles O26: the step answers because no beat is consumed under RSV3, and each of its events keeps the invariant. -/
theorem theInvariantIsKept : Obligations.TheInvariantIsKept := by
  unfold Obligations.TheInvariantIsKept
  intro s h
  obtain ⟨t, hst⟩ := step_next h
  exact ⟨t, hst, step_keeps_inv h hst⟩

/-- Settles O25: the reset state is what an edge with `rst` makes of itself. -/
theorem theInvariantHoldsAtReset : Obligations.TheInvariantHoldsAtReset := by
  unfold Obligations.TheInvariantHoldsAtReset
  exact resetBlock_inv State.reset (by decide)

end Sys2Proof.Machine
end

section
/-! What the events of a call leave in the registers, and what the next command reads of them (10_state.md R22, R23, R25, R36). -/

namespace Sys2Proof.Machine

/-- An edge in RUN keeps the flags of a call that has failed (40_call_protocol.md R123). -/
theorem runSides_fail_final {s b : State} (hi : BeatCase (arrive s) b ∨ b = arrive s) (hf : s.fail = true) :
    (outEvent s.edge (arrive s) b).fail = true ∧ (outEvent s.edge (arrive s) b).cause = s.cause ∧
      (outEvent s.edge (arrive s) b).pos = s.pos := by
  obtain ⟨-, -, -, -, -, -, -, hflags, -⟩ := input_frame hi
  obtain ⟨-, -, -, -, -, -, -, ofail, ocause, opos, -⟩ := outEvent_frame s.edge (arrive s) b
  obtain ⟨bfail, bcause, bpos⟩ := hflags hf
  exact ⟨ofail.trans bfail, ocause.trans bcause, opos.trans bpos⟩

/-- An edge in RUN keeps the registers that the command wrote. -/
theorem runSides_command {s b : State} (hi : BeatCase (arrive s) b ∨ b = arrive s) :
    (outEvent s.edge (arrive s) b).op = s.op ∧ (outEvent s.edge (arrive s) b).size = s.size ∧
      (outEvent s.edge (arrive s) b).len = s.len ∧ (outEvent s.edge (arrive s) b).total = s.total := by
  obtain ⟨-, bop, bsize, blen, btotal, -⟩ := input_frame hi
  obtain ⟨-, oop, osize, olen, ototal, -⟩ := outEvent_frame s.edge (arrive s) b
  exact ⟨oop.trans bop, osize.trans bsize, olen.trans blen, ototal.trans btotal⟩

/-- Settles O29: in RUN a failed call only drains its beats, and no event of RESULT writes a flag. -/
theorem theFirstFailureIsFinal : Obligations.TheFirstFailureIsFinal := by
  unfold Obligations.TheFirstFailureIsFinal
  intro s t hbusy hnr hf hst
  cases step_cases hst with
  | reset hr ht => simp [hnr] at hr
  | idleWait hr hp hc ht => exact absurd hp hbusy
  | command w cs hr hp hc ht => exact absurd hp hbusy
  | finWait hr hp he hh ht => simp [ht, hf]
  | fin hr hp he hh ht => simp [ht, hf]
  | run b hr hp he hi ht => rw [ht]; exact runSides_fail_final (input_cases hi) hf
  | resWait hr hp hh ht => simp [ht, hf]
  | deliver hr hp hh ht => simp [ht, hf]

/-- Settles O30: of the events without `rst`, CMD-ACCEPT alone writes the four registers, and it goes from IDLE to RUN. -/
theorem commandRegistersAreConstantDuringACall : Obligations.CommandRegistersAreConstantDuringACall := by
  unfold Obligations.CommandRegistersAreConstantDuringACall
  intro s t hst hnr hnoAccept
  cases step_cases hst with
  | reset hr ht => simp [hnr] at hr
  | idleWait hr hp hc ht => simp [ht]
  | command w cs hr hp hc ht => exact absurd ⟨hp, by simp [ht]⟩ hnoAccept
  | finWait hr hp he hh ht => simp [ht]
  | fin hr hp he hh ht => simp [ht]
  | run b hr hp he hi ht => rw [ht]; exact runSides_command (input_cases hi)
  | resWait hr hp hh ht => simp [ht]
  | deliver hr hp hh ht => simp [ht]

/-- A step in IDLE with a command on offer is its acceptance (40_call_protocol.md R113). -/
theorem step_accepts {s : State} (hr : s.edge.rst = false) (hp : s.phase = .idle) {w : CmdWord} {cs : List CmdWord}
    (hc : (arrive s).cmds = w :: cs) : step s = .next
      (applyCheck (checkOf s.par (decode w).op (BitVec.ofInt 32 (decode w).size).toInt (BitVec.ofNat 31 (decode w).len).toNat)
        (loadCommand (decode w).op (BitVec.ofInt 32 (decode w).size) (BitVec.ofNat 31 (decode w).len) (arrive s))) := by
  have hidle : (arrive s).phase = .idle := hp
  have hstep : step s = idleEvent (arrive s) := by simp [step, edgeEvent, hr, hp]
  have hevent : idleEvent (arrive s) = exec (decode w) (arrive s) := by simp only [idleEvent, hc]
  rw [hstep, hevent, exec_eq, acceptCommand_idle hidle, arrive_par]

/-- Loading a command overwrites every register that a call leaves behind: what it keeps is the parameters and the
environment. -/
theorem loadCommand_congr {s s' : State} (op : Op) (size : BitVec 32) (len : BitVec 31) (hpar : s'.par = s.par)
    (hcmds : s'.cmds = s.cmds) (hins : s'.ins = s.ins) (hout : s'.out = s.out) (hrec : s'.receipts = s.receipts)
    (hedges : s'.edges = s.edges) : loadCommand op size len s' = loadCommand op size len s := by
  simp only [loadCommand, hpar, hcmds, hins, hout, hrec, hedges]

/-- The coming edge is read from the listed edges alone. -/
theorem edge_congr {s s' : State} (h : s'.edges = s.edges) : s'.edge = s.edge := by
  simp only [State.edge, h]

/-- Settles O31: the command on offer is decoded from the channel, and its loading overwrites the registers. -/
theorem nothingSurvivesIntoTheNextCall : Obligations.NothingSurvivesIntoTheNextCall := by
  unfold Obligations.NothingSurvivesIntoTheNextCall
  intro s s' hp hp' hpar hcmds hins hout hrec hedges hr hoffer
  have hedge : s'.edge = s.edge := edge_congr hedges
  have hcmds' : (arrive s').cmds = (arrive s).cmds := by simp [hcmds, hedge]
  obtain ⟨w, cs, hc⟩ := List.exists_cons_of_ne_nil hoffer
  rw [step_accepts hr hp hc, step_accepts (hedge ▸ hr) hp' (hcmds'.trans hc), hpar,
    loadCommand_congr (s := arrive s) (s' := arrive s') _ _ _ hpar hcmds' (by simp [hins, hedge]) hout hrec (by simp [hedges])]

end Sys2Proof.Machine
end

section
/-! The memory of the caller: the canonical form of OUT, and how the lanes of a beat carry its units (20_memory.md R50, R53, R55, R56). -/

namespace Sys2Proof.Machine

/-- IN-ACCEPT writes no unit of OUT (40_call_protocol.md R115). -/
theorem BeatCase.out {s t : State} (h : BeatCase s t) : t.out = s.out := by
  cases h with
  | none hins ht => rw [ht]
  | encoded b r hins hop ht => simp [ht]
  | decoded b r v hins hop hf hc ht => simp [ht]
  | valid b r v hins hop hf hc ht => simp [ht]
  | failing b r c hins hop hf hc ht => simp [ht]
  | drained b r hins hop hf ht => simp [ht]

/-- OUT-DELIVER, the one event that writes OUT, keeps its canonical form. -/
theorem deliverOut_wf {s : State} (h : Memory.wf s.out = true) : Memory.wf (deliverOut s).out = true := by
  cases hq : s.q with
  | nil => rwa [deliverOut_nil s hq]
  | cons b r => rw [deliverOut_cons s hq]; exact Memory.writeAll_wf _ _ _ h

theorem outEvent_wf {e : Edge} {s t : State} (h : Memory.wf t.out = true) : Memory.wf (outEvent e s t).out = true := by
  obtain ⟨-, heq⟩ | ⟨-, -, heq⟩ | ⟨-, -, heq⟩ := outEvent_cases e s t <;> rw [heq]
  · exact deliverOut_wf h
  · exact h
  · exact h

/-- An edge with `rst` voids what was delivered (70_reset_and_hazards.md R251, R253). -/
@[simp] theorem resetEvent_out (e : Edge) (s : State) : (resetEvent e s).out = [] := by
  unfold resetEvent; split <;> rfl

/-- Settles O36: reset and RES-DELIVER empty OUT, an edge in RUN writes it through `Memory.writeAll`, and no other event touches it. -/
theorem outStaysCanonical : Obligations.OutStaysCanonical := by
  unfold Obligations.OutStaysCanonical
  intro s t h hst
  have empty : Memory.wf [] = true := rfl
  have ha : Memory.wf (arrive s).out = true := h
  cases step_cases hst with
  | reset hr ht => rwa [ht, resetEvent_out]
  | idleWait hr hp hc ht => rwa [ht]
  | command w cs hr hp hc ht => rwa [ht, applyCheck_out, loadCommand_out]
  | finWait hr hp he hh ht => rwa [ht]
  | fin hr hp he hh ht => rwa [ht, finish_out]
  | run b hr hp he hi ht =>
    have hb : b.out = (arrive s).out := by
      obtain hbeat | rfl := input_cases hi
      · exact hbeat.out
      · rfl
    rw [ht]; exact outEvent_wf (by rwa [hb])
  | resWait hr hp hh ht => rwa [ht]
  | deliver hr hp hh ht => rwa [ht, deliverResult_out]

/-- A number below `2 ^ w` is its own last lane. -/
theorem lane_four_of_lt {w a : Nat} (ha : a < 2 ^ w) : lane w a 4 = a := by
  simp [lane, Nat.mod_eq_of_lt ha]

/-- The unit with the highest offset travels in the last lane. -/
theorem lane_four {w a : Nat} (b : Nat) (ha : a < 2 ^ w) : lane w (b * 2 ^ w + a) 4 = a := by
  simp [lane, lane_split b ha]

/-- A unit below the others moves each of them up one lane. -/
theorem lane_above {w a : Nat} (b : Nat) (ha : a < 2 ^ w) {i : Nat} (hi : i < 4) :
    lane w (b * 2 ^ w + a) i = lane w b (i + 1) := by
  have hshift : w * (4 - i) = w + w * (4 - (i + 1)) := by
    rw [show 4 - i = 4 - (i + 1) + 1 by omega, Nat.mul_succ, Nat.add_comm]
  rw [lane, hshift, Nat.shiftRight_add, Nat.shiftRight_eq_div_pow _ w, (lane_split b ha).2, lane]

/-- DEC and VAL input: five units packed and cut again (20_memory.md R55). -/
theorem lanes5_decInBeat {w : Nat} {u : Units5} (h0 : u.u0 < 2 ^ w) (h1 : u.u1 < 2 ^ w) (h2 : u.u2 < 2 ^ w)
    (h3 : u.u3 < 2 ^ w) (h4 : u.u4 < 2 ^ w) : lanes5 w (decInBeat w u) = u := by
  simp [lanes5, decInBeat, lane_above, lane_four, lane_four_of_lt, h0, h1, h2, h3, h4]

/-- ENC input: the chunk is read from the low 32 bits alone (20_memory.md R55, 41_encode.md R145). -/
theorem encInChunk_encInBeat (b0 b1 b2 b3 : Byte) (high : Nat) :
    encInChunk (encInBeat b0 b1 b2 b3 + 2 ^ 32 * high) = be32 b0 b1 b2 b3 := by
  apply BitVec.eq_of_toNat_eq
  rw [encInChunk, encInBeat, BitVec.toNat_ofNat, Nat.add_mul_mod_self_left, BitVec.toNat_mod_cancel]

/-- `bytes_be` undoes `be32`: each byte is read back from its place in the number (20_memory.md R56). -/
theorem bytesBe_be32 (b0 b1 b2 b3 : Byte) : bytesBe (be32 b0 b1 b2 b3) = [b0, b1, b2, b3] := by
  simp only [bytesBe, List.cons.injEq, and_true]
  refine ⟨?_, ?_, ?_, ?_⟩ <;> (apply BitVec.eq_of_toNat_eq; rw [byte_toNat, be32_toNat]; omega)

/-- The last character of an ENC beat stands in bits 7:0, and the four before it are the bytes of the number above. -/
theorem outUnits_enc_append (v : Chunk) (c : Byte) : outUnits .enc (v ++ c) = bytesBe v ++ [c] := by
  have above (k : Nat) : (v ++ c).extractLsb' (k + 8) 8 = v.extractLsb' k 8 :=
    BitVec.extractLsb'_append_eq_of_le (Nat.le_add_left 8 k)
  rw [outUnits, above 0, above 8, above 16, above 24, BitVec.extractLsb'_append_eq_right]
  rfl

/-- ENC output: five characters packed and cut again. -/
theorem outUnits_enc_chars5 (c0 c1 c2 c3 c4 : Byte) : outUnits .enc (chars5 c0 c1 c2 c3 c4) = [c0, c1, c2, c3, c4] := by
  have split : chars5 c0 c1 c2 c3 c4 = be32 c0 c1 c2 c3 ++ c4 := rfl
  rw [split, outUnits_enc_append, bytesBe_be32]
  rfl

/-- DEC output: the chunk is the low 32 bits of its beat. -/
theorem outUnits_dec_decOutBeat (v : Chunk) : outUnits .dec (decOutBeat v) = bytesBe v := by
  rw [outUnits, decOutBeat, BitVec.extractLsb'_append_eq_right]

/-- Settles O48, a lemma per beat format. -/
theorem lanesCarryTheUnitsInOrder : Obligations.LanesCarryTheUnitsInOrder := by
  unfold Obligations.LanesCarryTheUnitsInOrder
  exact ⟨encInChunk_encInBeat, fun _ _ => lanes5_decInBeat, outUnits_enc_chars5,
    fun v => ⟨outUnits_dec_decOutBeat v, decOutBeat_toNat v⟩⟩

/-- Settles O49: `be32` is the number its bytes write, and its bytes are read back from their places. -/
theorem chunksAreBigEndian : Obligations.ChunksAreBigEndian := by
  unfold Obligations.ChunksAreBigEndian
  exact fun b0 b1 b2 b3 => ⟨be32_toNat b0 b1 b2 b3, bytesBe_be32 b0 b1 b2 b3⟩

end Sys2Proof.Machine
end

section
/-! The command word: its three fields, and the command it holds (30_encoding.md R84 to R87). -/

namespace Sys2Proof

/-- The operation map of R86 reads each operation back from its code. -/
@[simp] theorem Op.ofCode_code (op : Op) : Op.ofCode op.code = op := by
  cases op <;> rfl

/-- No code of two bits is without its operation (R87). -/
@[simp] theorem Op.code_ofCode (c : BitVec 2) : (Op.ofCode c).code = c := by
  revert c; decide

theorem Op.ofCode_eq_iff (c : BitVec 2) (op : Op) : Op.ofCode c = op ↔ c = op.code :=
  ⟨fun h => h ▸ (Op.code_ofCode c).symm, fun h => h ▸ Op.ofCode_code op⟩

@[simp] theorem Instr.op_ofOp (op : Op) (size : Int) (len : Nat) : (Instr.ofOp op size len).op = op := by
  cases op <;> rfl

@[simp] theorem Instr.size_ofOp (op : Op) (size : Int) (len : Nat) : (Instr.ofOp op size len).size = size := by
  cases op <;> rfl

@[simp] theorem Instr.len_ofOp (op : Op) (size : Int) (len : Nat) : (Instr.ofOp op size len).len = len := by
  cases op <;> rfl

/-- A command is its operation with its operands. -/
theorem Instr.ofOp_eta (i : Instr) : Instr.ofOp i.op i.size i.len = i := by
  cases i <;> rfl

theorem Instr.wellFormed_iff (i : Instr) :
    i.wellFormed = true ↔ (-2 ^ 31 ≤ i.size ∧ i.size < 2 ^ 31) ∧ i.len < 2 ^ 31 := by
  simp [Instr.wellFormed, sizeFits, lenFits]

/-- Whatever the two operand fields hold is legal to present (R87). -/
theorem Instr.wellFormed_ofOp (op : Op) (size : BitVec 32) (len : BitVec 31) :
    (Instr.ofOp op size.toInt len.toNat).wellFormed = true := by
  rw [Instr.wellFormed_iff, Instr.size_ofOp, Instr.len_ofOp]
  exact ⟨⟨size.le_toInt, size.toInt_lt⟩, len.isLt⟩

theorem decode_op (w : CmdWord) : (decode w).op = Op.ofCode (opField w) := Instr.op_ofOp _ _ _

theorem decode_size (w : CmdWord) : (decode w).size = (sizeField w).toInt := Instr.size_ofOp _ _ _

theorem decode_len (w : CmdWord) : (decode w).len = (lenField w).toNat := Instr.len_ofOp _ _ _

theorem decode_wellFormed (w : CmdWord) : (decode w).wellFormed = true :=
  Instr.wellFormed_ofOp _ _ _

/-- The fields of an encoded command, for all four operations (R84). -/
theorem fields_encode (i : Instr) : opField (encode i) = i.op.code ∧ sizeField (encode i) = BitVec.ofInt 32 i.size ∧
    lenField (encode i) = BitVec.ofNat 31 i.len :=
  fields_of_append _ _ _

/-- The three fields are the whole word: "Every command word has this one length" (R84). -/
theorem append_fields (w : CmdWord) : opField w ++ sizeField w ++ lenField w = w := by
  have upper : opField w ++ sizeField w = w.extractLsb' 31 34 := BitVec.extractLsb'_append_extractLsb'_eq_extractLsb' rfl
  have whole : w.extractLsb' 31 34 ++ lenField w = w.extractLsb' 0 65 :=
    BitVec.extractLsb'_append_extractLsb'_eq_extractLsb' rfl
  rw [upper, whole, BitVec.extractLsb'_eq_self]

theorem decode_encode {i : Instr} (h : i.wellFormed = true) : decode (encode i) = i := by
  obtain ⟨⟨hlow, hhigh⟩, hlen⟩ := (Instr.wellFormed_iff i).1 h
  obtain ⟨opField_eq, sizeField_eq, lenField_eq⟩ := fields_encode i
  have size_back : (BitVec.ofInt 32 i.size).toInt = i.size := BitVec.toInt_ofInt_eq_self (by decide) hlow hhigh
  have len_back : (BitVec.ofNat 31 i.len).toNat = i.len := (BitVec.toNat_ofNat ..).trans (Nat.mod_eq_of_lt hlen)
  rw [decode, opField_eq, sizeField_eq, lenField_eq, Op.ofCode_code, size_back, len_back, Instr.ofOp_eta]

theorem encode_decode (w : CmdWord) : encode (decode w) = w := by
  rw [encode, decode_op, decode_size, decode_len, Op.code_ofCode, BitVec.ofInt_toInt, BitVec.ofNat_toNat,
    BitVec.setWidth_eq, append_fields]

/-- Settles O1: the fields of the encoded word are the operands cut to their widths, and a well-formed command fits them. -/
theorem decodeOfEncodeIsTheCommand : Obligations.DecodeOfEncodeIsTheCommand := by
  unfold Obligations.DecodeOfEncodeIsTheCommand
  exact fun _ => decode_encode

/-- Settles O2: a word is the concatenation of its fields, and every field is legal. -/
theorem encodeOfDecodeIsTheWord : Obligations.EncodeOfDecodeIsTheWord := by
  unfold Obligations.EncodeOfDecodeIsTheWord
  exact fun w => ⟨decode_wellFormed w, encode_decode w⟩

theorem lenField_toNat (w : CmdWord) : (lenField w).toNat = w.toNat % 2 ^ 31 := by
  rw [lenField, BitVec.extractLsb'_toNat, Nat.shiftRight_zero]

theorem sizeField_toNat (w : CmdWord) : (sizeField w).toNat = w.toNat / 2 ^ 31 % 2 ^ 32 := by
  rw [sizeField, BitVec.extractLsb'_toNat, Nat.shiftRight_eq_div_pow]

/-- Nothing stands above `op` in the word. -/
theorem opField_toNat (w : CmdWord) : (opField w).toNat = w.toNat / 2 ^ 63 := by
  have hw : w.toNat < 2 ^ 65 := w.isLt
  rw [opField, BitVec.extractLsb'_toNat, Nat.shiftRight_eq_div_pow, Nat.mod_eq_of_lt (by omega)]

/-- `signed32` of the size field (R85). -/
theorem sizeField_toInt (w : CmdWord) : (sizeField w).toInt =
    if (sizeField w).toNat < 2 ^ 31 then ((sizeField w).toNat : Int) else ((sizeField w).toNat : Int) - 2 ^ 32 := by
  rw [BitVec.toInt_eq_toNat_cond]
  split <;> split <;> omega

/-- The operation is the one whose code is the number in the top two bits (R86). -/
theorem decode_op_iff (w : CmdWord) (op : Op) : (decode w).op = op ↔ w.toNat / 2 ^ 63 = op.code.toNat := by
  rw [decode_op, Op.ofCode_eq_iff, ← BitVec.toNat_inj, opField_toNat]

/-- Settles O3, from the number that each field of the word is. -/
theorem wordFieldsAreReadAsSizeLenAndOp : Obligations.WordFieldsAreReadAsSizeLenAndOp := by
  unfold Obligations.WordFieldsAreReadAsSizeLenAndOp
  intro w
  refine ⟨?_, ?_, decode_op_iff w .enc, decode_op_iff w .dec, decode_op_iff w .val, decode_op_iff w .rsv3⟩
  · rw [decode_len, lenField_toNat]
  · rw [decode_size, sizeField_toInt, sizeField_toNat]

/-- Settles O4: each word is a closed number that the decoder reads. -/
theorem sampleWordsDecode : Obligations.SampleWordsDecode := by
  unfold Obligations.SampleWordsDecode
  decide

end Sys2Proof
end

section
/-! The result word (30_encoding.md R88), and the reserved operation from its command word to its result word (R87). -/

namespace Sys2Proof.Machine

section
variable (err verdict : Bool) (cause : Cause) (pos : BitVec 32)

@[simp] theorem resErr_resultWord : resErr (resultWord err verdict cause pos) = err := by
  simp only [resErr, resultWord, BitVec.getLsbD_append]
  simp

@[simp] theorem resVerdict_resultWord : resVerdict (resultWord err verdict cause pos) = verdict := by
  simp only [resVerdict, resultWord, BitVec.getLsbD_append]
  simp

@[simp] theorem resCause_resultWord : resCause (resultWord err verdict cause pos) = cause.code := by
  rw [resCause, resultWord, BitVec.extractLsb'_append_eq_of_le (Nat.le_refl 32), BitVec.extractLsb'_append_eq_right]

@[simp] theorem resPos_resultWord : resPos (resultWord err verdict cause pos) = pos :=
  BitVec.extractLsb'_append_eq_right

end

/-- The eight causes have eight numbers (60_exceptions.md R220). -/
theorem Cause.code_inj {c d : Cause} : c.code = d.code ↔ c = d := by
  cases c <;> cases d <;> decide

/-- `err` is `FAIL`, but 0 for VAL (30_encoding.md R88). -/
theorem State.err_iff (s : State) : s.err = true ↔ s.fail = true ∧ s.op ≠ .val := by
  simp [State.err]

theorem State.verdict_iff (s : State) : s.verdict = true ↔ s.fail = false := by
  simp [State.verdict]

/-- `CAUSE` is 0 exactly while `FAIL` is (10_state.md R25). -/
theorem StateInv.no_cause_iff {s : State} (h : StateInv s) : s.fail = false ↔ s.cause = .none := by
  rw [← Bool.not_eq_true, h.cause_iff_fail, not_not]

/-- `POS` is the offset of a chunk: `5 * k`, or 0 (10_state.md R25, 42_decode.md R172). -/
theorem StateInv.five_dvd_pos {s : State} (h : StateInv s) : s.pos.toNat % 5 = 0 := by
  by_cases hchunk : s.cause = .badChar ∨ s.cause = .outOfRange
  · obtain ⟨k, -, hk, -⟩ := h.pos_chunk hchunk
    rw [hk, Nat.mul_mod_right]
  · obtain ⟨hchar, hrange⟩ := not_or.1 hchunk
    rw [h.pos_zero hchar hrange]
    rfl

/-- Settles O34: the fields are read back from the word, and the invariant ties the registers they hold to each other. -/
theorem resultWordTellsTheOutcome : Obligations.ResultWordTellsTheOutcome := by
  unfold Obligations.ResultWordTellsTheOutcome
  intro s h
  simp only [State.result, resErr_resultWord, resVerdict_resultWord, resCause_resultWord, resPos_resultWord]
  refine ⟨s.err_iff, s.verdict_iff, trivial, trivial, ?_, ?_, h.five_dvd_pos, ?_⟩
  · calc s.verdict = true ↔ s.fail = false := s.verdict_iff
      _ ↔ s.cause = .none := h.no_cause_iff
      _ ↔ s.cause.code = 0 := Cause.code_inj.symm
  · intro herr
    obtain ⟨hfail, -⟩ := s.err_iff.1 herr
    rw [State.verdict, hfail, Bool.not_true]
  · exact fun hchar hrange => h.pos_zero (fun hc => hchar (Cause.code_inj.2 hc)) (fun hc => hrange (Cause.code_inj.2 hc))

/-- CMD-ACCEPT of a command with any operands that its word can hold (40_call_protocol.md R113). -/
theorem exec_ofOp_idle {s : State} (h : s.phase = .idle) (op : Op) (size : BitVec 32) (len : BitVec 31) :
    exec (.ofOp op size.toInt len.toNat) s =
      .next (applyCheck (checkOf s.par op size.toInt len.toNat) (loadCommand op size len s)) := by
  rw [exec_eq, acceptCommand_idle h, Instr.op_ofOp, Instr.size_ofOp, Instr.len_ofOp, BitVec.ofInt_toInt,
    BitVec.ofNat_toNat, BitVec.setWidth_eq]

/-- Settles O9: the check of RSV3 answers cause 7 and no chunks, whatever the operands. -/
theorem rsvCommandIsAccepted : Obligations.RsvCommandIsAccepted := by
  unfold Obligations.RsvCommandIsAccepted
  intro s size len h
  have accepted := exec_ofOp_idle h .rsv3 size len
  rwa [applyCheck_loadCommand (checkOf_regular _ _ _ _)] at accepted

/-- The check of RSV3 lets no beat in, so its receipt is that of the check alone: `ERR 7 0` (30_encoding.md R87, R88). -/
theorem receipt_rsvCheck : Progress.receipt .rsv3 ⟨rsvCheck.fail, rsvCheck.cause, 0, []⟩ =
    { res := 0x1700000000#37, out := [] } := by
  decide

/-- Settles O42: a call without beats, which ends by `call_ends`. -/
theorem rsvCallEndsWithBadOp : Obligations.RsvCallEndsWithBadOp := by
  unfold Obligations.RsvCallEndsWithBadOp
  intro s size len cs hinv hidle hnr hcmds
  have fits : (Instr.rsv3 size.toInt len.toNat).wellFormed = true := Instr.wellFormed_ofOp .rsv3 size len
  rw [← receipt_rsvCheck]
  exact call_ends theInvariantIsKept (decode_encode fits) fits hinv hidle hnr hcmds (bs := []) rfl rfl

end Sys2Proof.Machine
end

section
/-! The call protocol, event by event: CMD-ACCEPT, the two sides of an edge in RUN, FINISH and RES-DELIVER (40_call_protocol.md R111
to R119, R126). -/

namespace Sys2Proof.Machine

/-! ### CMD-ACCEPT (R113, R126) -/

theorem step_idle {s : State} (hr : s.edge.rst = false) (hp : s.phase = .idle) : step s = idleEvent (arrive s) := by
  simp [step, edgeEvent, hr, hp]

theorem idleEvent_cons {s : State} {w : CmdWord} {cs : List CmdWord} (hc : s.cmds = w :: cs) :
    idleEvent s = exec (decode w) s := by
  simp only [idleEvent, hc]

/-- Settles O5: the sampled state is `arrive s`, and the word at the head of its command channel is executed. -/
theorem stepRunsTheDecodedCommand : Obligations.StepRunsTheDecodedCommand := by
  unfold Obligations.StepRunsTheDecodedCommand
  intro s w cs hr hp hc
  rw [step_idle hr hp, idleEvent_cons hc, arrive, hc]

/-- The state after the acceptance of a command of any operation, whole (R113, R114). -/
theorem exec_ofOp_accepted {s : State} (h : s.phase = .idle) (op : Op) (size : BitVec 32) (len : BitVec 31) :
    exec (.ofOp op size.toInt len.toNat) s = .next
      { s with
        phase := .run, op := op, size := size, len := len, idxIn := 0, idxOut := 0, q := [], outUp := false, pos := 0
        fail := (checkOf s.par op size.toInt len.toNat).fail
        cause := (checkOf s.par op size.toInt len.toNat).cause
        total := (checkOf s.par op size.toInt len.toNat).total
        cmds := s.cmds.tail } := by
  rw [exec_ofOp_idle h, applyCheck_loadCommand (checkOf_regular _ _ _ _)]

/-- Settles O6: acceptance under the check of ENC. -/
theorem encCommandIsAccepted : Obligations.EncCommandIsAccepted := by
  unfold Obligations.EncCommandIsAccepted
  exact fun _ size len h => exec_ofOp_accepted h .enc size len

/-- Settles O7: acceptance under the check of DEC. -/
theorem decCommandIsAccepted : Obligations.DecCommandIsAccepted := by
  unfold Obligations.DecCommandIsAccepted
  exact fun _ size len h => exec_ofOp_accepted h .dec size len

/-- Settles O8: acceptance under the check of VAL, which has no `size` operand. -/
theorem valCommandIsAccepted : Obligations.ValCommandIsAccepted := by
  unfold Obligations.ValCommandIsAccepted
  exact fun _ size len h => exec_ofOp_accepted h .val size len

theorem cmdReady_iff (e : Edge) (s : State) : cmdReady e s = true ↔ s.phase = .idle ∧ e.rst = false := by
  simp [cmdReady]

/-- Settles O13: every instruction is the acceptance of its command, which a busy block leaves waiting. -/
theorem commandWaitsWhileACallRuns : Obligations.CommandWaitsWhileACallRuns := by
  unfold Obligations.CommandWaitsWhileACallRuns
  intro i s e hbusy
  constructor
  · rw [exec_eq, acceptCommand_busy hbusy]
  · exact Bool.eq_false_iff.2 fun hready => hbusy ((cmdReady_iff e s).1 hready).1

/-! ### IN-ACCEPT (R115) -/

section
variable {s : State} {b : InBeat} {r : List InBeat}

theorem inAccept_nil (hins : s.ins = []) : inAccept s = .next s := by
  simp only [inAccept, hins]

theorem inAccept_enc (hins : s.ins = b :: r) (hop : s.op = .enc) : inAccept s = .next (encBeat b (takeBeat s)) := by
  simp only [inAccept, hins, hop]

theorem inAccept_dec (hins : s.ins = b :: r) (hop : s.op = .dec) :
    inAccept s = .next (decBeat s.idxIn b (takeBeat s)) := by
  simp only [inAccept, hins, hop]

theorem inAccept_val (hins : s.ins = b :: r) (hop : s.op = .val) :
    inAccept s = .next (valBeat s.idxIn b (takeBeat s)) := by
  simp only [inAccept, hins, hop]

theorem inAccept_rsv3 (hins : s.ins = b :: r) (hop : s.op = .rsv3) : inAccept s = .fault .noBeatRule := by
  simp only [inAccept, hins, hop]

end

/-- Settles O17: of the four operations RSV3 alone has no beat rule. -/
theorem rsvBeatStopsTheModel : Obligations.RsvBeatStopsTheModel := by
  unfold Obligations.RsvBeatStopsTheModel
  exact fun _ _ _ hop hins => inAccept_rsv3 hins hop

/-! ### OUT-DELIVER (R116), alone and beside IN-ACCEPT (R119) -/

/-- Settles O19: the cells of OUT are read back from `Memory.writeAll`, and a beat has as many units as its format says. -/
theorem outDeliverWritesOneChunkOfOut : Obligations.OutDeliverWritesOneChunkOfOut := by
  unfold Obligations.OutDeliverWritesOneChunkOfOut
  intro s b r hq
  have hout : (deliverOut s).out =
      Memory.writeAll s.out (unitsPerOutBeat s.op * s.idxOut.toNat) (outUnits s.op b) := by
    rw [deliverOut_cons s hq]
  refine ⟨by rw [deliverOut_cons s hq], fun a hlow hhigh => ?_, fun a hoff => ?_⟩
  · rw [Nat.mul_succ] at hhigh
    rw [hout, Memory.read_writeAll, outUnits_length, if_pos ⟨hlow, hhigh⟩]
  · rw [Nat.mul_succ] at hoff
    rw [hout, Memory.read_writeAll, outUnits_length, if_neg (by omega)]

/-- The counter and the channel of the input side are not those of the output side. -/
theorem takeBeat_deliverOut (s : State) : takeBeat (deliverOut s) = deliverOut (takeBeat s) := by
  cases hq : s.q with
  | nil => rw [deliverOut_nil s hq, deliverOut_nil (takeBeat s) hq]
  | cons b r => rw [deliverOut_cons s hq, deliverOut_cons (takeBeat s) hq]; rfl

/-- OUT-DELIVER reads and writes no failure flag. -/
theorem failChunk_deliverOut (c : Cause) (k : BitVec 32) (s : State) :
    failChunk c k (deliverOut s) = deliverOut (failChunk c k s) := by
  cases hq : s.q with
  | nil => rw [deliverOut_nil s hq, deliverOut_nil (failChunk c k s) hq]
  | cons b r => rw [deliverOut_cons s hq, deliverOut_cons (failChunk c k s) hq]; rfl

/-- A beat goes to the tail of `Q`, and with one in `Q` already the delivered one is another. -/
theorem pushQ_deliverOut (beat : OutBeat) {s : State} (hq : s.q ≠ []) :
    pushQ beat (deliverOut s) = deliverOut (pushQ beat s) := by
  obtain ⟨b, r, hq⟩ := List.exists_cons_of_ne_nil hq
  have hpush : (pushQ beat s).q = b :: (r ++ [beat]) := by rw [pushQ_q, hq, List.cons_append]
  rw [deliverOut_cons s hq, deliverOut_cons _ hpush]
  rfl

theorem decBeat_deliverOut (k : BitVec 32) (beat : InBeat) {s : State} (hq : s.q ≠ []) :
    decBeat k beat (deliverOut s) = deliverOut (decBeat k beat s) := by
  simp only [decBeat, deliverOut_fail, deliverOut_par]
  split
  · rfl
  · split
    · exact pushQ_deliverOut _ hq
    · exact failChunk_deliverOut _ _ _

theorem valBeat_deliverOut (k : BitVec 32) (beat : InBeat) (s : State) :
    valBeat k beat (deliverOut s) = deliverOut (valBeat k beat s) := by
  simp only [valBeat, deliverOut_fail, deliverOut_par]
  split
  · rfl
  · split
    · rfl
    · exact failChunk_deliverOut _ _ _

/-- Settles O20: every part of every beat rule commutes with OUT-DELIVER, which leaves the beat and the operation as they are. -/
theorem inAcceptAndOutDeliverCommute : Obligations.InAcceptAndOutDeliverCommute := by
  unfold Obligations.InAcceptAndOutDeliverCommute
  intro s t hq h
  cases hins : s.ins with
  | nil =>
    rw [inAccept_nil hins] at h
    cases h
    exact inAccept_nil ((deliverOut_ins s).trans hins)
  | cons b r =>
    have hins' : (deliverOut s).ins = b :: r := (deliverOut_ins s).trans hins
    have hop' : (deliverOut s).op = s.op := deliverOut_op s
    have hqt : (takeBeat s).q ≠ [] := hq
    cases hop : s.op with
    | enc =>
      rw [inAccept_enc hins hop] at h
      cases h
      rw [inAccept_enc hins' (hop'.trans hop), takeBeat_deliverOut, encBeat, pushQ_deliverOut _ hqt, encBeat]
    | dec =>
      rw [inAccept_dec hins hop] at h
      cases h
      rw [inAccept_dec hins' (hop'.trans hop), takeBeat_deliverOut, deliverOut_idxIn, decBeat_deliverOut _ _ hqt]
    | val =>
      rw [inAccept_val hins hop] at h
      cases h
      rw [inAccept_val hins' (hop'.trans hop), takeBeat_deliverOut, deliverOut_idxIn, valBeat_deliverOut]
    | rsv3 =>
      rw [inAccept_rsv3 hins hop] at h
      cases h

/-! ### An edge in RUN (R111, R117, R119) -/

theorem step_run {s : State} (hr : s.edge.rst = false) (hp : s.phase = .run) : step s = runEvent s.edge (arrive s) := by
  simp [step, edgeEvent, hr, hp]

section
variable {e : Edge} {s : State}

theorem runEvent_finish (hf : finishEnabled s = true) : runEvent e s = .next (if e.finHold then s else finish s) := by
  rw [runEvent, if_pos hf]

theorem runEvent_input {t : State} (hf : finishEnabled s = false) (hi : inTransfers e s = true)
    (hb : inAccept s = .next t) : runEvent e s = .next (outEvent e s t) := by
  simp [runEvent, hf, hi, hb]

theorem runEvent_no_input (hf : finishEnabled s = false) (hi : inTransfers e s = false) :
    runEvent e s = .next (outEvent e s s) := by
  simp [runEvent, hf, hi]

theorem outEvent_transfer (t : State) (ho : outTransfers e s = true) : outEvent e s t = deliverOut t := by
  rw [outEvent, if_pos ho]

/-- Without a transfer, what `out_valid` shows is all that the output side remembers (R111). -/
theorem outEvent_no_transfer (t : State) (ho : outTransfers e s = false) :
    outEvent e s t = { t with outUp := t.outUp || outValid e s } := by
  cases hv : outValid e s <;> simp [outEvent, ho, hv, holdOut]

end

/-- Settles O18, from the two input cases of `runEvent` and the two output cases of `outEvent`. -/
theorem runEdgeTransfersInThenOut : Obligations.RunEdgeTransfersInThenOut := by
  unfold Obligations.RunEdgeTransfersInThenOut
  intro s t hr hp hf
  rw [step_run hr hp]
  refine ⟨fun hi hb => ?_, fun hi => ?_⟩
  · rw [runEvent_input hf hi hb]
    exact ⟨fun ho => by rw [outEvent_transfer t ho], fun ho => by rw [outEvent_no_transfer t ho]⟩
  · rw [runEvent_no_input hf hi]
    exact ⟨fun ho => by rw [outEvent_transfer _ ho], fun ho => by rw [outEvent_no_transfer _ ho, arrive_outUp]⟩

/-- Settles O21: with its condition met, FINISH is all that the edge can do. -/
theorem finishMovesToResult : Obligations.FinishMovesToResult := by
  unfold Obligations.FinishMovesToResult
  intro s hr hp hidx hq
  have enabled : finishEnabled (arrive s) = true := (finishEnabled_iff _).2 ⟨hp, hidx, hq⟩
  rw [step_run hr hp, runEvent_finish enabled]
  refine ⟨fun hh => ?_, fun hh => ?_⟩ <;> rw [hh]
  · rfl
  · rfl

/-! ### RES-DELIVER (R118) -/

theorem step_result {s : State} (hr : s.edge.rst = false) (hp : s.phase = .result) :
    step s = .next (resultEvent s.edge (arrive s)) := by
  simp [step, edgeEvent, hr, hp]

theorem resValid_iff (e : Edge) (s : State) : resValid e s = true ↔ s.phase = .result ∧ e.rst = false := by
  simp [resValid]

/-- While the word is on offer, its transfer is the host's `res_ready`. -/
theorem resultEvent_eq {e : Edge} {s : State} (hv : resValid e s = true) :
    resultEvent e s = if e.resReady then deliverResult s else s := by
  rw [resultEvent, resTransfers, hv, Bool.true_and]

/-- Settles O22: `res_ready` decides whether the edge is RES-DELIVER. -/
theorem resultDeliverEndsTheCall : Obligations.ResultDeliverEndsTheCall := by
  unfold Obligations.ResultDeliverEndsTheCall
  intro s hr hp
  rw [step_result hr hp, resultEvent_eq ((resValid_iff s.edge (arrive s)).2 ⟨hp, hr⟩)]
  refine ⟨fun hh => ?_, fun hh => ?_⟩ <;> rw [hh]
  · rfl
  · rfl

end Sys2Proof.Machine
end

section
/-! The call protocol over a step and over a run: the order of the phases, the ports, the beat counts, and that the machine never stops
(40_call_protocol.md R111, R112, R120, R122, R124). -/

namespace Sys2Proof.Machine

/-- Every run from a state of the invariant goes on, in the invariant. -/
theorem run_keeps_inv (n : Nat) {s : State} (h : StateInv s) : ∃ t, Sys2Proof.core.run n s = .next t ∧ StateInv t := by
  induction n generalizing s with
  | zero => exact ⟨s, rfl, h⟩
  | succ n ih =>
    obtain ⟨t, hst, ht⟩ := theInvariantIsKept s h
    rw [run_succ hst]
    exact ih ht

/-- Settles O27, by induction on the number of steps. -/
theorem theMachineNeverStops : Obligations.TheMachineNeverStops := by
  unfold Obligations.TheMachineNeverStops
  intro s h n
  obtain ⟨t, hrun, -⟩ := run_keeps_inv n h
  exact ⟨t, hrun⟩

@[simp] theorem resetEvent_phase (e : Edge) (s : State) : (resetEvent e s).phase = .idle := by
  unfold resetEvent; split <;> rfl

/-- An edge in RUN without FINISH stays in RUN. -/
theorem runSides_phase {s b : State} (hi : BeatCase (arrive s) b ∨ b = arrive s) :
    (outEvent s.edge (arrive s) b).phase = s.phase := by
  obtain ⟨bphase, -⟩ := input_frame hi
  obtain ⟨ophase, -⟩ := outEvent_frame s.edge (arrive s) b
  exact ophase.trans bphase

/-- Settles O28, event by event. -/
theorem phasesFollowInOneOrder : Obligations.PhasesFollowInOneOrder := by
  unfold Obligations.PhasesFollowInOneOrder
  intro s t h
  cases step_cases h with
  | reset hr ht => simp [hr, ht]
  | idleWait hr hp hc ht => simp [hr, hp, ht]
  | command w cs hr hp hc ht => simp [hr, hp, hc, ht, -arrive_cmds]
  | finWait hr hp he hh ht => simp [hr, hp, ht]
  | fin hr hp he hh ht =>
    obtain ⟨-, hidx, hq⟩ := (finishEnabled_iff _).1 he
    simp [hr, hp, ht, show s.idxIn = s.total from hidx, show s.q = [] from hq]
  | run b hr hp he hi ht => simp [hr, hp, ht, runSides_phase (input_cases hi)]
  | resWait hr hp hh ht => simp [hr, hp, ht]
  | deliver hr hp hh ht => simp [hr, hp, hh, ht]

/-- `Q` holds something only in RUN (R116, R117). -/
theorem StateInv.run_of_queue {s : State} (h : StateInv s) (hq : s.q ≠ []) : s.phase = .run :=
  not_imp_comm.1 h.queue_only_in_run hq

theorem inReady_iff (e : Edge) (s : State) : inReady e s = true ↔
    s.phase = .run ∧ s.idxIn < s.total ∧ s.q.length < s.par.pipeDepth ∧ e.inHold = false ∧ e.rst = false := by
  simp [inReady, and_assoc]

/-- Settles O33, from each port's own definition; that `out_valid` needs RUN is the invariant's: in no other phase does `Q` hold a beat. -/
theorem portsFollowThePhase : Obligations.PortsFollowThePhase := by
  unfold Obligations.PortsFollowThePhase
  intro e s h
  refine ⟨cmdReady_iff e s, fun hin => ?_, fun hout => ?_, resValid_iff e s⟩
  · obtain ⟨hp, hlt, hroom, -, hr⟩ := (inReady_iff e s).1 hin
    exact ⟨hp, BitVec.lt_def.1 hlt, hroom, hr⟩
  · obtain ⟨hq, -, hr⟩ := (outValid_iff e s).1 hout
    exact ⟨hq, h.run_of_queue hq, hr⟩

/-- An output beat that is shown and not taken stays at the head of `Q`, and the block remembers that it was shown (R111). -/
theorem step_holds_shown_beat {s t : State} (h : StateInv s) (hv : outValid s.edge (arrive s) = true)
    (ho : outTransfers s.edge (arrive s) = false) (hst : step s = .next t) :
    t.outUp = true ∧ ∃ l, t.q = s.q ++ l := by
  obtain ⟨hq, -, hnr⟩ := (outValid_iff _ _).1 hv
  have hrun : s.phase = .run := h.run_of_queue hq
  have hnf : finishEnabled (arrive s) ≠ true := fun he => hq ((finishEnabled_iff _).1 he).2.2
  cases step_cases hst with
  | reset hr ht => simp [hnr] at hr
  | idleWait hr hp hc ht => simp [hrun] at hp
  | command w cs hr hp hc ht => simp [hrun] at hp
  | finWait hr hp he hh ht => exact absurd he hnf
  | fin hr hp he hh ht => exact absurd he hnf
  | run b hr hp he hi ht =>
    obtain ⟨-, -, -, -, -, -, -, -, ⟨l, hqb⟩, -⟩ := input_frame (input_cases hi)
    rw [ht, outEvent_no_transfer b ho, hv]
    exact ⟨Bool.or_true _, l, hqb⟩
  | resWait hr hp hh ht => simp [hrun] at hp
  | deliver hr hp hh ht => simp [hrun] at hp

/-- Settles O32: what has been shown and remembered is shown again, and more beats in `Q` stand behind it. -/
theorem raisedOutputStaysRaised : Obligations.RaisedOutputStaysRaised := by
  unfold Obligations.RaisedOutputStaysRaised
  intro s t h hv ho hst hnr
  obtain ⟨hup, l, hqt⟩ := step_holds_shown_beat h hv ho hst
  obtain ⟨hq, -⟩ := (outValid_iff _ _).1 hv
  obtain ⟨b, r, hqs⟩ := List.exists_cons_of_ne_nil (show s.q ≠ [] from hq)
  have hv' : outValid t.edge (arrive t) = true := by
    rw [outValid_iff, arrive_q, arrive_outUp, hqt]
    exact ⟨List.append_ne_nil_of_left_ne_nil hq l, .inl hup, hnr⟩
  refine ⟨hv', ?_⟩
  rw [outData, outData, if_pos hv, if_pos hv', arrive_q, arrive_q, hqt, hqs, List.cons_append, List.head?_cons, List.head?_cons]

/-- A call whose checks failed has no beats (R124). -/
theorem StateInv.total_zero_of_failed_check {s : State} (h : StateInv s) (hp : s.phase ≠ .idle) (hc : s.check.fail = true) :
    s.total = 0 :=
  (h.total_checked hp).trans ((checkOf_regular _ _ _ _).1 hc)

/-- No more is delivered than there are beats (10_state.md R24). -/
theorem StateInv.idxOut_zero_of_total_zero {s : State} (h : StateInv s) (ht : s.total = 0) : s.idxOut = 0 := by
  have hdel := h.delivered_le_consumed
  have hcon := h.consumed_le_total
  rw [ht] at hcon
  apply BitVec.eq_of_toNat_eq
  change s.idxIn.toNat ≤ 0 at hcon
  change s.idxOut.toNat = 0
  omega

/-- ENC fails only by its checks (60_exceptions.md R221, 10_state.md R25). -/
theorem StateInv.enc_ok_of_passed_check {s : State} (h : StateInv s) (hp : s.phase ≠ .idle) (hop : s.op = .enc)
    (hc : s.check.fail = false) : s.fail = false := by
  obtain hnone | ⟨henc, -⟩ := h.passed_check hp hc
  · exact h.no_cause_iff.2 hnone
  · exact absurd hop henc

/-- Settles O35: in RESULT all beats are consumed and none waits in `Q`, so the counts of the invariant are those of the call. -/
theorem beatCountsWhenTheResultIsOffered : Obligations.BeatCountsWhenTheResultIsOffered := by
  unfold Obligations.BeatCountsWhenTheResultIsOffered
  intro s h hp
  have hbusy : s.phase ≠ .idle := by simp [hp]
  have hqlen : s.q.length = 0 := by rw [h.queue_only_in_run (by simp [hp]), List.length_nil]
  have hidx : s.idxIn = s.total := h.result_after_beats hp
  have exact_of_ok (hf : s.fail = false) (hop : s.op = .enc ∨ s.op = .dec) : s.idxOut = s.total := by
    have hcount := h.exact_while_ok hf hop
    rw [hqlen, Nat.add_zero, hidx] at hcount
    exact BitVec.eq_of_toNat_eq hcount
  refine ⟨hidx, fun hop => ?_, fun hop hf => exact_of_ok hf (.inr hop), fun hop hcause => ?_,
    fun hop => (h.no_output hop).2, fun hc => ?_⟩
  · cases hc : s.check.fail with
    | true =>
      have htotal := h.total_zero_of_failed_check hbusy hc
      rw [h.idxOut_zero_of_total_zero htotal, htotal]
    | false => exact exact_of_ok (h.enc_ok_of_passed_check hbusy hop hc) (.inl hop)
  · obtain ⟨k, -, hpos, hdelivered⟩ := h.pos_chunk hcause
    rw [hpos, ← hdelivered hop, hqlen, Nat.add_zero]
  · have htotal := h.total_zero_of_failed_check hbusy hc
    exact ⟨hidx.trans htotal, h.idxOut_zero_of_total_zero htotal⟩

end Sys2Proof.Machine
end

section
/-! ENC: its argument check, the digits of its chunk, its beat, and its call from the command word to the receipt (41_encode.md R141 to
R146). -/

namespace Sys2Proof.Machine

/-! ### The argument check (R141) -/

/-- `MAX_INPUT_LENGTH` is the largest multiple of 4 whose output still fits into `MAX_SEQ_LEN` (R141). -/
theorem maxInputLength_largest (p : Params) : maxInputLength p % 4 = 0 ∧ maxInputLength p / 4 * 5 ≤ p.maxSeqLen ∧
    p.maxSeqLen < (maxInputLength p + 4) / 4 * 5 := by
  unfold maxInputLength
  omega

section
variable {p : Params} {size : Int} {len : Nat}

theorem encCheck_negative (hneg : size < 0) : encCheck p size len = .fails .sizeNeg := by
  rw [encCheck, if_pos hneg]

theorem encCheck_above_len (h0 : 0 ≤ size) (hlen : (len : Int) < size) : encCheck p size len = .fails .sizeGtLen := by
  rw [encCheck, if_neg (not_lt.2 h0), if_pos hlen]

theorem encCheck_no_multiple (h0 : 0 ≤ size) (hlen : size ≤ len) (h4 : size % 4 ≠ 0) :
    encCheck p size len = .fails .sizeNotMult := by
  rw [encCheck, if_neg (not_lt.2 h0), if_neg (not_lt.2 hlen), if_pos h4]

theorem encCheck_too_large (h0 : 0 ≤ size) (hlen : size ≤ len) (h4 : size % 4 = 0) (hmax : (maxInputLength p : Int) < size) :
    encCheck p size len = .fails .sizeTooLarge := by
  rw [encCheck, if_neg (not_lt.2 h0), if_neg (not_lt.2 hlen), if_neg (not_not.2 h4), if_pos hmax]

theorem encCheck_passes (h0 : 0 ≤ size) (hlen : size ≤ len) (h4 : size % 4 = 0) (hmax : size ≤ maxInputLength p) :
    encCheck p size len = .passes (BitVec.ofNat 32 (size.toNat >>> 2)) := by
  rw [encCheck, if_neg (not_lt.2 h0), if_neg (not_lt.2 hlen), if_neg (not_not.2 h4), if_neg (not_lt.2 hmax)]

/-- A check of ENC that passes has found a size within `len`, and answers its quarter (R141, R142). -/
theorem encCheck_of_passed (h : (encCheck p size len).fail = false) :
    (0 ≤ size ∧ size ≤ len) ∧ encCheck p size len = .passes (BitVec.ofNat 32 (size.toNat >>> 2)) := by
  unfold encCheck at h ⊢
  split_ifs at h ⊢ with hneg hlen h4 hmax
  · cases h
  · cases h
  · cases h
  · cases h
  · exact ⟨⟨not_lt.1 hneg, not_lt.1 hlen⟩, rfl⟩

/-- `TOTAL = size >> 2 = floor(size / 4)` in 32 bits (R142). -/
theorem quarter_toNat (h0 : 0 ≤ size) (hlen : size ≤ len) (hl : len < 2 ^ 31) :
    ((BitVec.ofNat 32 (size.toNat >>> 2)).toNat : Int) = size / 4 := by
  rw [BitVec.toNat_ofNat, Nat.shiftRight_eq_div_pow]
  omega

/-- The chunks that a check of ENC answers lie within the caller's buffer. -/
theorem encCheck_total_le (hl : len < 2 ^ 31) : 4 * (encCheck p size len).total.toNat ≤ len := by
  cases hf : (encCheck p size len).fail with
  | true =>
    have htotal : (encCheck p size len).total = 0 := (checkOf_regular p .enc size len).1 hf
    rw [htotal]
    exact Nat.zero_le len
  | false =>
    obtain ⟨⟨h0, hlen⟩, hpass⟩ := encCheck_of_passed hf
    have hquarter := quarter_toNat h0 hlen hl
    simp only [hpass, Check.passes]
    omega

end

/-- Settles O10, an equation of `encCheck` per condition. -/
theorem encCheckAnswersTheFirstCause : Obligations.EncCheckAnswersTheFirstCause := by
  unfold Obligations.EncCheckAnswersTheFirstCause
  intro p size len hl
  refine ⟨maxInputLength_largest p, encCheck_negative, fun ⟨h0, hlen⟩ => encCheck_above_len h0 hlen,
    fun ⟨h0, hlen, h4⟩ => encCheck_no_multiple h0 hlen h4,
    fun ⟨h0, hlen, h4, hmax⟩ => encCheck_too_large h0 hlen h4 hmax, fun ⟨h0, hlen, h4, hmax⟩ => ?_⟩
  rw [encCheck_passes h0 hlen h4 hmax]
  exact ⟨rfl, rfl, quarter_toNat h0 hlen hl⟩

/-! ### The digits of a chunk (R143, R144) -/

theorem digit85_val (x : BitVec 32) : (digit85 x).val = x.toNat % 85 := rem85_toNat x

theorem topDigit_val (v : Chunk) : (topDigit v).val = v.toNat / 85 / 85 / 85 / 85 := by
  simp only [topDigit, divBy85_toNat]

/-- The five digits as remainders of the successive quotients (R143). -/
theorem encDigits_val (v : Chunk) : (encDigits v).d0.val = v.toNat / 85 / 85 / 85 / 85 ∧
    (encDigits v).d1.val = v.toNat / 85 / 85 / 85 % 85 ∧ (encDigits v).d2.val = v.toNat / 85 / 85 % 85 ∧
    (encDigits v).d3.val = v.toNat / 85 % 85 ∧ (encDigits v).d4.val = v.toNat % 85 := by
  simp only [encDigits, topDigit_val, digit85_val, divBy85_toNat, and_self]

/-- Putting the quotients and remainders together again gives the number back (30_encoding.md R83). -/
theorem digitsValue_encDigits (v : Chunk) : digitsValue (encDigits v) = v.toNat := by
  obtain ⟨h0, h1, h2, h3, h4⟩ := encDigits_val v
  rw [digitsValue, h0, h1, h2, h3, h4]
  omega

/-- `d0` is at most 82, for a chunk value is below `2^32 < 83 * 85^4` (R144). -/
theorem topDigit_le (v : Chunk) : (topDigit v).val ≤ 82 := by
  have hv := v.isLt
  rw [topDigit_val]
  omega

/-- Settles O50: successive quotients by 85 are the quotients by its powers. -/
theorem encoderDigitsSpellTheValue : Obligations.EncoderDigitsSpellTheValue := by
  unfold Obligations.EncoderDigitsSpellTheValue
  intro v
  have powers : v.toNat / 85 ^ 4 = v.toNat / 85 / 85 / 85 / 85 ∧ v.toNat / 85 ^ 3 = v.toNat / 85 / 85 / 85 ∧
      v.toNat / 85 ^ 2 = v.toNat / 85 / 85 := by
    simp only [Nat.div_div_eq_div_mul, Nat.reduceMul, Nat.reducePow, and_self]
  obtain ⟨pow4, pow3, pow2⟩ := powers
  obtain ⟨h0, h1, h2, h3, h4⟩ := encDigits_val v
  rw [pow4, pow3, pow2]
  exact ⟨digitsValue_encDigits v, h0, topDigit_le v, h1, h2, h3, h4, rfl⟩

/-! ### The beat (R145) -/

/-- Settles O14: IN-ACCEPT under ENC takes the beat and appends its chunk. -/
theorem encBeatAppendsItsChunk : Obligations.EncBeatAppendsItsChunk := by
  unfold Obligations.EncBeatAppendsItsChunk
  intro s b r hop hins
  rw [inAccept_enc hins hop, encBeat, pushQ, takeBeat, hins]
  rfl

/-! ### The call (R146) -/

/-- The beats of an ENC call leave the receipt of what `encode` gives its caller: none are read after a failed check, and after a
passed one all of them lie within the buffer (R146; 40_call_protocol.md R124). -/
theorem encodeCall_receipt (p : Params) (size : Int) {buf : List Byte} (hl : buf.length < 2 ^ 31) (w : Nat) :
    (encodeCall p buf size buf.length).receipt = some (Progress.receipt .enc
      (foldBeats .enc w 0 (encBeats buf 0 (encCheck p size buf.length).total.toNat)
        ⟨(encCheck p size buf.length).fail, (encCheck p size buf.length).cause, 0, []⟩)) := by
  obtain ⟨hfailed, hpassed⟩ : (encCheck p size buf.length).Regular := checkOf_regular p .enc size buf.length
  cases hf : (encCheck p size buf.length).fail with
  | true =>
    rw [encodeCall, if_pos hf, hfailed hf]
    rfl
  | false =>
    have hfit : 4 * (0 + (encCheck p size buf.length).total.toNat) ≤ buf.length := by
      rw [Nat.zero_add]
      exact encCheck_total_le hl
    obtain ⟨-, outs, hfold, hencode⟩ := foldBeats_enc (fun b0 b1 b2 b3 => encInChunk_encInBeat b0 b1 b2 b3 0) buf w _ 0 0 hfit
      ⟨false, .none, 0, []⟩
    rw [encodeCall, hf, if_neg Bool.false_ne_true, hpassed hf, hfold, hencode]
    rfl

/-- There are as many ENC beats as chunks, while the buffer lasts. -/
theorem encBeats_length (buf : List Byte) (j n : Nat) (h : 4 * (j + n) ≤ buf.length) : (encBeats buf j n).length = n :=
  (foldBeats_enc (fun b0 b1 b2 b3 => encInChunk_encInBeat b0 b1 b2 b3 0) buf 0 n j 0 h ⟨false, .none, 0, []⟩).1

/-- Settles O39: the call ends by `call_ends`, and the receipt it leaves is that of `encode` by `encodeCall_receipt`. -/
theorem encCallEndsWithItsEncoding : Obligations.EncCallEndsWithItsEncoding := by
  unfold Obligations.EncCallEndsWithItsEncoding
  intro s size buf cs rest hinv hidle hnr hl hcmds hins
  have fits : (Instr.enc size.toInt buf.length).wellFormed = true :=
    Instr.wellFormed_ofOp .enc size (.ofNatLT buf.length hl)
  have hbeats := encBeats_length buf 0 (encCheck s.par size.toInt buf.length).total.toNat
    (by rw [Nat.zero_add]; exact encCheck_total_le hl)
  obtain ⟨n, t, hrun, hend, hreceipts, hwords, hrest⟩ :=
    call_ends theInvariantIsKept (decode_encode fits) fits hinv hidle hnr hcmds hins hbeats
  exact ⟨n, t, _, hrun, hend, encodeCall_receipt s.par size.toInt hl s.par.charW, hreceipts, hwords, hrest⟩

end Sys2Proof.Machine
end

section
/-! DEC: its argument check, the lookup, the accumulator and the two tests of its chunk, its beat, and its call from the command
word to the receipt (42_decode.md R161 to R169). -/

namespace Sys2Proof.Machine

/-! ### The argument check (R166) -/

section
variable {size : Int} {len : Nat}

theorem decCheck_negative (hneg : size < 0) : decCheck size len = .fails .sizeNeg := by
  rw [decCheck, if_pos hneg]

theorem decCheck_above_len (h0 : 0 ≤ size) (hlen : (len : Int) < size) : decCheck size len = .fails .sizeGtLen := by
  rw [decCheck, if_neg (not_lt.2 h0), if_pos hlen]

/-- The test of the remainder in 32 bits is that of the number itself, for a size within a `len` of 31 bits. -/
theorem rem5_size_ne_zero (h0 : 0 ≤ size) (hlen : size ≤ len) (hl : len < 2 ^ 31) :
    rem5 (BitVec.ofNat 32 size.toNat) ≠ 0 ↔ size % 5 ≠ 0 := by
  rw [rem5_ofNat_ne_zero (by omega)]
  omega

theorem decCheck_no_multiple (h0 : 0 ≤ size) (hlen : size ≤ len) (hl : len < 2 ^ 31) (h5 : size % 5 ≠ 0) :
    decCheck size len = .fails .sizeNotMult := by
  rw [decCheck, if_neg (not_lt.2 h0), if_neg (not_lt.2 hlen), if_pos ((rem5_size_ne_zero h0 hlen hl).2 h5)]

theorem decCheck_passes (h0 : 0 ≤ size) (hlen : size ≤ len) (hl : len < 2 ^ 31) (h5 : size % 5 = 0) :
    decCheck size len = .passes (divBy5 (BitVec.ofNat 32 size.toNat)) := by
  rw [decCheck, if_neg (not_lt.2 h0), if_neg (not_lt.2 hlen),
    if_neg fun hrem => (rem5_size_ne_zero h0 hlen hl).1 hrem h5]

/-- `TOTAL = divBy5(size)` in 32 bits is the fifth of the size (R166, R167). -/
theorem fifth_toNat (h0 : 0 ≤ size) (hlen : size ≤ len) (hl : len < 2 ^ 31) :
    ((divBy5 (BitVec.ofNat 32 size.toNat)).toNat : Int) = size / 5 := by
  rw [divBy5_ofNat (by omega)]
  omega

/-- The chunks that a check of DEC answers lie within the caller's buffer. -/
theorem decCheck_total_le (hl : len < 2 ^ 31) : 5 * (decCheck size len).total.toNat ≤ len := by
  unfold decCheck
  split_ifs with hneg hlen h5
  · exact Nat.zero_le len
  · exact Nat.zero_le len
  · exact Nat.zero_le len
  · have hfifth := fifth_toNat (not_lt.1 hneg) (not_lt.1 hlen) hl
    simp only [Check.passes]
    omega

end

/-- Settles O11, an equation of `decCheck` per condition. -/
theorem decCheckAnswersTheFirstCause : Obligations.DecCheckAnswersTheFirstCause := by
  unfold Obligations.DecCheckAnswersTheFirstCause
  intro size len hl
  refine ⟨decCheck_negative, fun ⟨h0, hlen⟩ => decCheck_above_len h0 hlen,
    fun ⟨h0, hlen, h5⟩ => decCheck_no_multiple h0 hlen hl h5, fun ⟨h0, hlen, h5⟩ => ?_⟩
  rw [decCheck_passes h0 hlen hl h5]
  exact ⟨rfl, rfl, fifth_toNat h0 hlen hl⟩

/-! ### The lookup of a unit (R161) -/

/-- The symbols are codes of seven bits, so the pre-check of R161 lets each of them pass. -/
theorem alpha_lt (d : Digit) : (alpha d).toNat < 128 := by
  revert d; decide

/-- INVERSE holds at the code of each symbol its index (30_encoding.md R81). -/
theorem inv_alpha (d : Digit) : inv (alpha d) = BitVec.ofNat 8 d.val := by
  revert d; decide

theorem lookup_alpha (d : Digit) : lookup (alpha d).toNat = some d := by
  rw [lookup, if_neg (not_le.2 (alpha_lt d)), BitVec.ofNat_toNat, BitVec.setWidth_eq, inv_alpha, digitOfCell_ofNat]

/-- A unit that the lookup finds is below 128, so no high bit is lost on the way to the ROM, and it stands at a symbol's code. -/
theorem eq_alpha_of_lookup {u : Nat} {d : Digit} (h : lookup u = some d) : ∃ e, u = (alpha e).toNat := by
  unfold lookup at h
  split_ifs at h with hhigh
  have hu : u < 2 ^ 8 := by omega
  obtain hcell | ⟨e, he⟩ := inv_cells ⟨u, hu⟩
  · rw [← BitVec.ofFin_eq_ofNat (lt := hu), hcell, digitOfCell, if_pos rfl] at h
    cases h
  · exact ⟨e, (congrArg BitVec.toNat he).symm⟩

/-- Settles O47: a found unit is some symbol's code, and the lookup of a code is that symbol's index. -/
theorem lookupFindsExactlyTheSymbols : Obligations.LookupFindsExactlyTheSymbols := by
  unfold Obligations.LookupFindsExactlyTheSymbols
  intro u d
  constructor
  · intro h
    obtain ⟨e, rfl⟩ := eq_alpha_of_lookup h
    rw [Option.some.inj ((lookup_alpha e).symm.trans h)]
  · rintro rfl
    exact lookup_alpha d

/-! ### The accumulator (R163) -/

theorem digitsValue_le (d : Digits5) : digitsValue d ≤ 85 ^ 5 - 1 := by
  have h0 := d.d0.isLt
  have h1 := d.d1.isLt
  have h2 := d.d2.isLt
  have h3 := d.d3.isLt
  have h4 := d.d4.isLt
  rw [digitsValue]
  omega

/-- Each of the four steps starts from at most `85 ^ 4 - 1`, so none of them overflows (R163). -/
theorem horner_toNat (d : Digits5) : (horner d).toNat = digitsValue d := by
  have h0 := d.d0.isLt
  have h1 := d.d1.isLt
  have h2 := d.d2.isLt
  have h3 := d.d3.isLt
  have start : (BitVec.ofNat 33 d.d0.val).toNat = d.d0.val := by
    rw [BitVec.toNat_ofNat]
    omega
  have step1 := hornerStep_toNat d.d1 (a := BitVec.ofNat 33 d.d0.val) (by omega)
  have step2 := hornerStep_toNat d.d2 (a := hornerStep (BitVec.ofNat 33 d.d0.val) d.d1) (by omega)
  have step3 := hornerStep_toNat d.d3 (a := hornerStep (hornerStep (BitVec.ofNat 33 d.d0.val) d.d1) d.d2) (by omega)
  rw [horner, hornerStep_toNat d.d4 (by omega), step3, step2, step1, start, digitsValue]
  omega

/-- Settles O51: the accumulator never overflows, and five digits reach at most `85 ^ 5 - 1`. -/
theorem accumulatorNeverOverflows : Obligations.AccumulatorNeverOverflows := by
  unfold Obligations.AccumulatorNeverOverflows
  exact fun d => ⟨horner_toNat d, digitsValue_le d⟩

/-! ### The two tests of a chunk (R162, R164, R165) -/

/-- `acc[32] = 1` is the comparison with `2 ^ 32` (R164). -/
theorem accTooLarge_iff (acc : BitVec 33) : accTooLarge acc = true ↔ 2 ^ 32 ≤ acc.toNat := by
  have top : accTooLarge acc = acc.msb := (BitVec.msb_eq_getLsbD_last acc).symm
  rw [top, BitVec.msb_eq_true_iff_two_mul_ge]
  omega

section
variable {u : Units5} {d : Digits5}

/-- The range test on five digits is that of their exact value (R163, R164). -/
theorem outOfRange_iff (h : digitsOf u = some d) : outOfRange u = true ↔ 2 ^ 32 ≤ digitsValue d := by
  rw [outOfRange, h, ← horner_toNat]
  exact accTooLarge_iff _

theorem outOfRange_eq_false (h : digitsOf u = none) : outOfRange u = false := by
  rw [outOfRange, h]

theorem badChar_eq_false_iff : badChar u = false ↔ ∃ d, digitsOf u = some d := by
  rw [← Option.ne_none_iff_exists', Ne, digitsOf_eq_none, Bool.not_eq_true]

theorem decChunk_bad_character (h : digitsOf u = none) : decChunk u = .fail .badChar := by
  rw [decChunk, h]

theorem decChunk_out_of_range (h : digitsOf u = some d) (hv : 2 ^ 32 ≤ digitsValue d) : decChunk u = .fail .outOfRange := by
  rw [← horner_toNat] at hv
  simp only [decChunk, h, (accTooLarge_iff _).2 hv, if_true]

theorem decChunk_ok (h : digitsOf u = some d) (hv : digitsValue d < 2 ^ 32) :
    decChunk u = .ok (BitVec.ofNat 32 (digitsValue d)) := by
  rw [← horner_toNat] at hv ⊢
  simp only [decChunk, h, (accTooLarge_iff _), not_le.2 hv, if_false, BitVec.ofNat_toNat]

/-- A chunk of five digits fails by its range, if it fails. -/
theorem decChunk_fail_outOfRange_iff (h : digitsOf u = some d) : decChunk u = .fail .outOfRange ↔ 2 ^ 32 ≤ digitsValue d := by
  constructor
  · intro hfail
    by_contra hv
    rw [decChunk_ok h (not_le.1 hv)] at hfail
    cases hfail
  · exact decChunk_out_of_range h

/-- Five digits never fail by a character. -/
theorem decChunk_ne_fail_badChar (h : digitsOf u = some d) : decChunk u ≠ .fail .badChar := by
  intro hfail
  obtain hv | hv := le_or_gt (2 ^ 32) (digitsValue d)
  · rw [decChunk_out_of_range h hv] at hfail
    cases hfail
  · rw [decChunk_ok h hv] at hfail
    cases hfail

theorem decChunk_fail_badChar_iff : decChunk u = .fail .badChar ↔ badChar u = true := by
  rw [← digitsOf_eq_none]
  constructor
  · intro hfail
    cases hd : digitsOf u with
    | none => rfl
    | some d => exact absurd hfail (decChunk_ne_fail_badChar hd)
  · exact decChunk_bad_character

end

/-- Settles O52: the lookups decide between the two tests, and the range test is exact because the accumulator is. -/
theorem chunkFailsByCharacterThenByRange : Obligations.ChunkFailsByCharacterThenByRange := by
  unfold Obligations.ChunkFailsByCharacterThenByRange
  intro u
  exact ⟨decChunk_fail_badChar_iff, fun hbad => outOfRange_eq_false ((digitsOf_eq_none u).2 hbad),
    fun d hd => ⟨badChar_eq_false_iff.2 ⟨d, hd⟩, outOfRange_iff hd, decChunk_fail_outOfRange_iff hd, decChunk_ok hd⟩,
    badChar_eq_false_iff.1⟩

/-! ### The beat (R168) -/

section
variable {k : BitVec 32} {beat : InBeat} {s : State}

theorem decBeat_drained (hf : s.fail = true) : decBeat k beat s = s := by
  rw [decBeat, if_pos hf]

theorem decBeat_ok {v : Chunk} (hf : s.fail = false) (hc : decChunk (lanes5 s.par.charW beat) = .ok v) :
    decBeat k beat s = pushQ (decOutBeat v) s := by
  rw [decBeat, hf, if_neg Bool.false_ne_true, hc]

theorem decBeat_fail {c : Cause} (hf : s.fail = false) (hc : decChunk (lanes5 s.par.charW beat) = .fail c) :
    decBeat k beat s = failChunk c k s := by
  rw [decBeat, hf, if_neg Bool.false_ne_true, hc]

end

/-- `POS` as the rules write it, `5 * k`, and in the 32 bits of the register (R172). -/
theorem ofNat_five_mul_toNat (k : BitVec 32) : BitVec.ofNat 32 (5 * k.toNat) = 5#32 * k := by
  rw [← five_mul_ofNat, BitVec.ofNat_toNat, BitVec.setWidth_eq]

/-- Settles O15: IN-ACCEPT under DEC takes the beat, and the rest is one of the three cases of `decBeat`. -/
theorem decBeatDecodesOrFailsOrDrains : Obligations.DecBeatDecodesOrFailsOrDrains := by
  unfold Obligations.DecBeatDecodesOrFailsOrDrains
  intro s b r hop hins
  have htake : takeBeat s = { s with ins := r, idxIn := s.idxIn + 1 } := by
    rw [takeBeat, hins]
    rfl
  rw [inAccept_dec hins hop, ofNat_five_mul_toNat]
  refine ⟨fun hf => ?_, fun v hf hc => ?_, fun c hf hc => ?_⟩
  · rw [decBeat_drained (s := takeBeat s) hf, htake]
  · rw [decBeat_ok (s := takeBeat s) hf hc, htake]
    rfl
  · rw [decBeat_fail (s := takeBeat s) hf hc, htake]
    rfl

/-! ### The call (R169) -/

/-- The beats of a DEC call are as many as its check answers, and they leave the receipt of what `decode` gives its caller: none are
read after a failed check, and after a passed one all of them lie within the buffer (R169; 40_call_protocol.md R124). -/
theorem decodeCall_receipt (size : Int) {buf : List Nat} (hl : buf.length < 2 ^ 31) {w : Nat} (hu : ∀ u ∈ buf, u < 2 ^ w) :
    (decBeats w buf 0 (decCheck size buf.length).total.toNat).length = (decCheck size buf.length).total.toNat ∧
    (decodeCall buf size buf.length).receipt = some (Progress.receipt .dec
      (foldBeats .dec w 0#32 (decBeats w buf 0 (decCheck size buf.length).total.toNat)
        ⟨(decCheck size buf.length).fail, (decCheck size buf.length).cause, 0#32, []⟩)) := by
  obtain ⟨hfailed, hpassed⟩ : (decCheck size buf.length).Regular := checkOf_regular .default .dec size buf.length
  have hfit : 5 * (0 + (decCheck size buf.length).total.toNat) ≤ buf.length := by
    rw [Nat.zero_add]
    exact decCheck_total_le hl
  obtain ⟨hbeats, hfold⟩ := foldBeats_dec (fun u ⟨h0, h1, h2, h3, h4⟩ => lanes5_decInBeat h0 h1 h2 h3 h4)
    outUnits_dec_decOutBeat buf hu _ 0 hfit []
  refine ⟨hbeats, ?_⟩
  cases hf : (decCheck size buf.length).fail with
  | true =>
    rw [decodeCall, if_pos hf, hfailed hf]
    rfl
  | false =>
    rw [decodeCall, hf, if_neg Bool.false_ne_true, hpassed hf]
    obtain ⟨outs, hok, hdecode⟩ | ⟨c, k, outs, hfail, hdecode⟩ := hfold
    · rw [hok, hdecode]
      rfl
    · rw [hfail, hdecode]
      rfl

/-- Settles O40: the call ends by `call_ends`, and the receipt it leaves is that of `decode` by `decodeCall_receipt`. -/
theorem decCallEndsWithItsDecoding : Obligations.DecCallEndsWithItsDecoding := by
  unfold Obligations.DecCallEndsWithItsDecoding
  intro s size buf cs rest hinv hidle hnr hl hu hcmds hins
  have fits : (Instr.dec size.toInt buf.length).wellFormed = true :=
    Instr.wellFormed_ofOp .dec size (.ofNatLT buf.length hl)
  obtain ⟨hbeats, hreceipt⟩ := decodeCall_receipt size.toInt hl hu
  obtain ⟨n, t, hrun, hend, hreceipts, hwords, hrest⟩ :=
    call_ends theInvariantIsKept (decode_encode fits) fits hinv hidle hnr hcmds hins hbeats
  exact ⟨n, t, _, hrun, hend, hreceipt, hreceipts, hwords, hrest⟩

end Sys2Proof.Machine
end

section
/-! VAL: its argument check, its beat, and its call from the command word to the receipt (43_isvalid.md R180 to R184). -/

namespace Sys2Proof.Machine

/-! ### The argument check (R182) -/

section
variable {len : Nat}

theorem valCheck_no_multiple (hl : len < 2 ^ 31) (h5 : len % 5 ≠ 0) : valCheck len = .fails .sizeNotMult := by
  rw [valCheck, if_pos ((rem5_ofNat_ne_zero hl).2 h5)]

theorem valCheck_passes (hl : len < 2 ^ 31) (h5 : len % 5 = 0) : valCheck len = .passes (divBy5 (BitVec.ofNat 32 len)) := by
  rw [valCheck, if_neg fun hrem => (rem5_ofNat_ne_zero hl).1 hrem h5]

/-- The chunks that a check of VAL answers lie within the caller's buffer. -/
theorem valCheck_total_le (hl : len < 2 ^ 31) : 5 * (valCheck len).total.toNat ≤ len := by
  by_cases h5 : len % 5 = 0
  · rw [valCheck_passes hl h5, Check.passes, divBy5_ofNat hl]
    exact Nat.mul_div_le len 5
  · rw [valCheck_no_multiple hl h5]
    exact Nat.zero_le len

end

/-- Settles O12, an equation of `valCheck` per length. -/
theorem valCheckAnswersByTheLength : Obligations.ValCheckAnswersByTheLength := by
  unfold Obligations.ValCheckAnswersByTheLength
  intro len hl
  refine ⟨valCheck_no_multiple hl, fun h5 => ?_⟩
  rw [valCheck_passes hl h5]
  exact ⟨rfl, rfl, divBy5_ofNat hl⟩

/-! ### The beat (R183) -/

section
variable {k : BitVec 32} {beat : InBeat} {s : State}

theorem valBeat_drained (hf : s.fail = true) : valBeat k beat s = s := by
  rw [valBeat, if_pos hf]

theorem valBeat_ok {v : Chunk} (hf : s.fail = false) (hc : decChunk (lanes5 s.par.charW beat) = .ok v) :
    valBeat k beat s = s := by
  rw [valBeat, hf, if_neg Bool.false_ne_true, hc]

theorem valBeat_fail {c : Cause} (hf : s.fail = false) (hc : decChunk (lanes5 s.par.charW beat) = .fail c) :
    valBeat k beat s = failChunk c k s := by
  rw [valBeat, hf, if_neg Bool.false_ne_true, hc]

end

/-- Settles O16: IN-ACCEPT under VAL takes the beat, and the rest is one of the three cases of `valBeat`. -/
theorem valBeatChecksWithoutOutput : Obligations.ValBeatChecksWithoutOutput := by
  unfold Obligations.ValBeatChecksWithoutOutput
  intro s b r hop hins
  have htake : takeBeat s = { s with ins := r, idxIn := s.idxIn + 1 } := by
    rw [takeBeat, hins]
    rfl
  rw [inAccept_val hins hop, ofNat_five_mul_toNat]
  refine ⟨fun hf => ?_, fun v hf hc => ?_, fun c hf hc => ?_⟩
  · rw [valBeat_drained (s := takeBeat s) hf, htake]
  · rw [valBeat_ok (s := takeBeat s) hf hc, htake]
  · rw [valBeat_fail (s := takeBeat s) hf hc, htake]
    rfl

/-! ### The call (R184) -/

/-- There are as many DEC or VAL beats as chunks, while the buffer lasts. -/
theorem decBeats_length {w : Nat} {buf : List Nat} (hu : ∀ u ∈ buf, u < 2 ^ w) (j n : Nat) (h : 5 * (j + n) ≤ buf.length) :
    (decBeats w buf j n).length = n :=
  (foldBeats_dec (fun _ ⟨h0, h1, h2, h3, h4⟩ => lanes5_decInBeat h0 h1 h2 h3 h4) outUnits_dec_decOutBeat buf hu n j h []).1

/-- The beats of a VAL call are as many as its check answers, and they leave the receipt of what `isValid` answers its caller: after a
failed check none are read, and after a passed one all of them lie within the buffer (R184; 40_call_protocol.md R124). -/
theorem isValidCall_receipt {buf : List Nat} (hl : buf.length < 2 ^ 31) {w : Nat} (hu : ∀ u ∈ buf, u < 2 ^ w) :
    (decBeats w buf 0 (valCheck buf.length).total.toNat).length = (valCheck buf.length).total.toNat ∧
    ∃ v, isValidCall buf buf.length = some v ∧ receiptVal v = Progress.receipt .val
      (foldBeats .val w 0#32 (decBeats w buf 0 (valCheck buf.length).total.toNat)
        ⟨(valCheck buf.length).fail, (valCheck buf.length).cause, 0#32, []⟩) := by
  obtain ⟨hfailed, hpassed⟩ : (valCheck buf.length).Regular := checkOf_regular .default .val 0 buf.length
  have hfit : 5 * (0 + (valCheck buf.length).total.toNat) ≤ buf.length := by
    rw [Nat.zero_add]
    exact valCheck_total_le hl
  refine ⟨decBeats_length hu 0 _ hfit, ?_⟩
  cases hf : (valCheck buf.length).fail with
  | true =>
    rw [isValidCall, if_pos hf, hfailed hf]
    exact ⟨_, rfl, rfl⟩
  | false =>
    rw [isValidCall, hf, if_neg Bool.false_ne_true, hpassed hf]
    obtain ⟨hvalid, hverdict⟩ | ⟨c, k, hfail, hverdict⟩ :=
      foldBeats_val (fun _ ⟨h0, h1, h2, h3, h4⟩ => lanes5_decInBeat h0 h1 h2 h3 h4) buf hu _ 0 hfit []
    · rw [hvalid, hverdict]
      exact ⟨_, rfl, rfl⟩
    · rw [hfail, hverdict]
      exact ⟨_, rfl, rfl⟩

/-- Settles O41: the call ends by `call_ends`, and the receipt it leaves is that of `isValid` by `isValidCall_receipt`. -/
theorem valCallEndsWithItsVerdict : Obligations.ValCallEndsWithItsVerdict := by
  unfold Obligations.ValCallEndsWithItsVerdict
  intro s size buf cs rest hinv hidle hnr hl hu hcmds hins
  have fits : (Instr.val size.toInt buf.length).wellFormed = true :=
    Instr.wellFormed_ofOp .val size (.ofNatLT buf.length hl)
  obtain ⟨hbeats, v, hverdict, hreceipt⟩ := isValidCall_receipt hl hu
  obtain ⟨n, t, hrun, hend, hreceipts, hwords, hrest⟩ :=
    call_ends theInvariantIsKept (decode_encode fits) fits hinv hidle hnr hcmds hins hbeats
  exact ⟨n, t, v, hrun, hend, hverdict, hreceipt ▸ hreceipts, hwords, hrest⟩

end Sys2Proof.Machine
end

section
/-! The division primitives: true division, the remainders formed from it, and its realisation by a multiply and a shift
(44_division.md R190 to R195). -/

namespace Sys2Proof.Machine

/-! ### The realisations (R192 to R194) -/

/-- R194 on numbers: a multiplier `m` that exceeds `2 ^ s / d` by `e / d` divides exactly while the excess of the product stays below
`2 ^ s`. With both sides of the fraction multiplied by `d`, the product is `x * 2 ^ s` and that excess. -/
theorem mul_div_two_pow_eq_div {x m d s e : Nat} (hd : 0 < d) (hmd : m * d = 2 ^ s + e) (hxe : x * e < 2 ^ s) :
    x * m / 2 ^ s = x / d :=
  calc x * m / 2 ^ s
    _ = x * (m * d) / (2 ^ s * d) := by rw [← Nat.mul_assoc, Nat.mul_div_mul_right _ _ hd]
    _ = (x * e + x * 2 ^ s) / 2 ^ s / d := by rw [hmd, Nat.mul_add, Nat.add_comm, Nat.div_div_eq_div_mul]
    _ = x / d := by rw [Nat.add_mul_div_right _ _ (Nat.two_pow_pos s), Nat.div_eq_of_lt hxe, Nat.zero_add]

/-- R194 on words: with a 32-bit multiplier the product fits in 64 bits, and with `0 < e <= 2 ^ (s - 32)` the excess of the product
stays below `2 ^ s` for every 32-bit operand. -/
theorem mulShift_eq_udiv {m : BitVec 64} {d : BitVec 32} {s e : Nat} (x : BitVec 32) (hm : m.toNat < 2 ^ 32) (hd : 0 < d.toNat)
    (hmd : m.toNat * d.toNat = 2 ^ s + e) (he : 0 < e) (hes : 2 ^ 32 * e ≤ 2 ^ s) :
    ((x.setWidth 64 * m) >>> s).setWidth 32 = x / d := by
  have hx : (x.setWidth 64).toNat = x.toNat := BitVec.toNat_setWidth_of_le (by decide)
  have hfit : (x.setWidth 64).toNat * m.toNat < 2 ^ 64 := by
    rw [hx]
    exact (Nat.mul_lt_mul'' x.isLt hm).trans_eq (Nat.pow_add 2 32 32).symm
  have hquot : x.toNat * m.toNat / 2 ^ s = (x / d).toNat := by
    rw [BitVec.toNat_udiv]
    exact mul_div_two_pow_eq_div hd hmd ((Nat.mul_lt_mul_of_pos_right x.isLt he).trans_le hes)
  apply BitVec.eq_of_toNat_eq
  rw [BitVec.toNat_setWidth, BitVec.toNat_ushiftRight, BitVec.toNat_mul_of_lt hfit, hx, Nat.shiftRight_eq_div_pow, hquot,
    Nat.mod_eq_of_lt (x / d).isLt]

/-- `e = 1` for `M5` and `S5` (R194). -/
theorem divBy5MulShift_eq_divBy5 (x : BitVec 32) : divBy5MulShift x = divBy5 x :=
  mulShift_eq_udiv (m := m5) (s := s5) (e := 1) x (by decide) (by decide) (by decide) (by decide) (by decide)

/-- `e = 21` for `M85` and `S85` (R194). -/
theorem divBy85MulShift_eq_divBy85 (x : BitVec 32) : divBy85MulShift x = divBy85 x :=
  mulShift_eq_udiv (m := m85) (s := s85) (e := 21) x (by decide) (by decide) (by decide) (by decide) (by decide)

/-- Settles O44, by `mulShift_eq_udiv` at the two pairs of constants. -/
theorem multiplyAndShiftDividesExactly : Obligations.MultiplyAndShiftDividesExactly := by
  unfold Obligations.MultiplyAndShiftDividesExactly
  exact fun x => ⟨divBy5MulShift_eq_divBy5 x, divBy85MulShift_eq_divBy85 x⟩

/-! ### The quotients and the remainders (R190, R191, R195) -/

theorem divBy5_toNat (x : BitVec 32) : (divBy5 x).toNat = x.toNat / 5 :=
  BitVec.toNat_udiv

/-- Settles O43: the bounds are the quotients of the largest operand, as division is monotone. -/
theorem divisionsAreTrueUnsignedDivision : Obligations.DivisionsAreTrueUnsignedDivision := by
  unfold Obligations.DivisionsAreTrueUnsignedDivision
  intro x
  have hx : x.toNat ≤ 2 ^ 32 - 1 := Nat.le_pred_of_lt x.isLt
  rw [divBy5_toNat, divBy85_toNat]
  exact ⟨rfl, Nat.div_le_div_right (c := 5) hx, rfl, Nat.div_le_div_right (c := 85) hx⟩

/-- Settles O45: the remainders are `rem5_toNat` and `rem85_toNat`, and a quotient times its divisor is at most the operand. -/
theorem remaindersAreExact : Obligations.RemaindersAreExact := by
  unfold Obligations.RemaindersAreExact
  intro x
  rw [divBy5_toNat, divBy85_toNat]
  exact ⟨rem5_toNat x, rem85_toNat x, Nat.mul_div_le x.toNat 5, Nat.mul_div_le x.toNat 85⟩

end Sys2Proof.Machine
end

section
/-! The tables and one chunk: the table law, the foreign unit, and the two directions of a chunk as inverses of each other
(45_laws.md R205, R207, and the step of R200 and R201). -/

namespace Sys2Proof.Machine

/-! ### The tables (R207) -/

/-- INVERSE holds the sentinel at every code that is no symbol's. -/
theorem inv_eq_sentinel {u : Byte} (h : ∀ d, alpha d ≠ u) : inv u = sentinel := by
  obtain hcell | ⟨d, hd⟩ := inv_cells u.toFin
  · exact hcell
  · exact absurd hd (h d)

/-- Two digits with one symbol are the digit that the lookup of its code finds. -/
theorem alpha_injective : Function.Injective alpha := by
  intro d e h
  rw [← Option.some.injEq, ← lookup_alpha d, ← lookup_alpha e, h]

theorem lookup_eq_some_iff (u : Nat) (d : Digit) : lookup u = some d ↔ u = (alpha d).toNat :=
  lookupFindsExactlyTheSymbols u d

/-- Settles O46: the cells at the symbols are `inv_alpha`, all the others `inv_eq_sentinel`. -/
theorem inverseTableInvertsTheAlphabet : Obligations.InverseTableInvertsTheAlphabet := by
  unfold Obligations.InverseTableInvertsTheAlphabet
  refine ⟨fun d => ?_, fun u => inv_eq_sentinel, alpha_injective, lookup_alpha, fun u d => (lookup_eq_some_iff u d).1⟩
  rw [inv_alpha, BitVec.toNat_ofNat]
  omega

/-- Settles O53: `bad_char` is the disjunction of the five failed lookups, and it alone decides for cause 5. -/
theorem foreignUnitFailsTheChunk : Obligations.ForeignUnitFailsTheChunk := by
  unfold Obligations.ForeignUnitFailsTheChunk
  intro u h
  apply decChunk_fail_badChar_iff.2
  simpa only [badChar, Bool.or_eq_true, Option.isNone_iff_eq_none, or_assoc] using h

/-! ### One chunk, there and back -/

/-- The five units of a text chunk in the order of their offsets (30_encoding.md R83). -/
def Units5.toList (u : Units5) : List Nat := [u.u0, u.u1, u.u2, u.u3, u.u4]

/-- The codes of the symbols of five digits, as units of text (30_encoding.md R80). -/
def Digits5.symbols (d : Digits5) : Units5 :=
  ⟨(alpha d.d0).toNat, (alpha d.d1).toNat, (alpha d.d2).toNat, (alpha d.d3).toNat, (alpha d.d4).toNat⟩

theorem Units5.toList_inj {u u' : Units5} : u.toList = u'.toList ↔ u = u' := by
  cases u
  cases u'
  simp [Units5.toList]

theorem digitsOf_eq_some_iff (u : Units5) (d : Digits5) : digitsOf u = some d ↔ u = d.symbols := by
  constructor
  · intro h
    unfold digitsOf at h
    split at h
    · next h0 h1 h2 h3 h4 =>
      cases h
      rw [lookup_eq_some_iff] at h0 h1 h2 h3 h4
      rw [Digits5.symbols, ← h0, ← h1, ← h2, ← h3, ← h4]
    · cases h
  · rintro rfl
    simp only [digitsOf, Digits5.symbols, lookup_alpha]

/-- Base 85 is a positional system: five digits are read back from their value, the last one first (30_encoding.md R83). -/
theorem digitsValue_injective : Function.Injective digitsValue := by
  rintro ⟨d0, d1, d2, d3, d4⟩ ⟨e0, e1, e2, e3, e4⟩ h
  simp only [digitsValue] at h
  simp only [Digits5.mk.injEq, Fin.ext_iff]
  have h4 : d4.val = e4.val := by omega
  have h3 : d3.val = e3.val := by omega
  have h2 : d2.val = e2.val := by omega
  have h1 : d1.val = e1.val := by omega
  exact ⟨by omega, h1, h2, h3, h4⟩

/-- The characters that the encoder writes for a chunk are the symbols of its digits. -/
theorem outUnits_encChunk_toNat (v : Chunk) :
    (outUnits .enc (encChunk v)).map BitVec.toNat = (encDigits v).symbols.toList := by
  rw [encChunk, charsOf, outUnits_enc_chars5]
  rfl

/-- The decoder answers a chunk exactly on the text that the encoder writes for it: this is the round trip of R200 and R201 on one
chunk. -/
theorem decChunk_eq_ok_iff (u : Units5) (v : Chunk) : decChunk u = .ok v ↔ u = (encDigits v).symbols := by
  rw [← digitsOf_eq_some_iff]
  constructor
  · intro hok
    cases hd : digitsOf u with
    | none =>
      rw [decChunk_bad_character hd] at hok
      cases hok
    | some d =>
      obtain hv | hv := le_or_gt (2 ^ 32) (digitsValue d)
      · rw [decChunk_out_of_range hd hv] at hok
        cases hok
      · rw [decChunk_ok hd hv] at hok
        cases hok
        congr 1
        apply digitsValue_injective
        rw [digitsValue_encDigits, BitVec.toNat_ofNat, Nat.mod_eq_of_lt hv]
  · intro hd
    have hv : digitsValue (encDigits v) < 2 ^ 32 := digitsValue_encDigits v ▸ v.isLt
    rw [decChunk_ok hd hv, digitsValue_encDigits, BitVec.ofNat_toNat, BitVec.setWidth_eq]

/-- `be32` undoes `bytes_be` (00_scope.md R7, 20_memory.md R56). -/
theorem be32_bytesBe (v : Chunk) :
    be32 (v.extractLsb' 24 8) (v.extractLsb' 16 8) (v.extractLsb' 8 8) (v.extractLsb' 0 8) = v := by
  have hv := v.isLt
  apply BitVec.eq_of_toNat_eq
  rw [be32_toNat, byte_toNat, byte_toNat, byte_toNat, byte_toNat]
  omega

theorem bytesBe_inj {v v' : Chunk} : bytesBe v = bytesBe v' ↔ v = v' := by
  refine ⟨fun h => ?_, congrArg bytesBe⟩
  simp only [bytesBe, List.cons.injEq, and_true] at h
  obtain ⟨h24, h16, h8, h0⟩ := h
  rw [← be32_bytesBe v, h24, h16, h8, h0, be32_bytesBe]

end Sys2Proof.Machine
end

section
/-! The laws of the calls: the round trips, the agreement of `isValid` with `decode`, the lengths, the boundary sizes and the
independence of the chunks (45_laws.md R200 to R204, R209). -/

namespace Sys2Proof.Machine

/-! ### What a call answers by its argument check (R146, R169) -/

section
variable {p : Params} {size : Int} {len n : Nat} {c : Cause} {out : List Byte}

theorem encodeCall_of_fails (buf : List Byte) (h : encCheck p size len = .fails c) : encodeCall p buf size len = .raises c 0 := by
  rw [encodeCall, h]
  rfl

theorem decodeCall_of_fails (buf : List Nat) (h : decCheck size len = .fails c) : decodeCall buf size len = .raises c 0 := by
  rw [decodeCall, h]
  rfl

/-- A size that the check of ENC passes is that of whole chunks, within the buffer and `MAX_INPUT_LENGTH` (R141). -/
theorem whole_chunks_of_encCheck_passed (h : (encCheck p size len).fail = false) :
    ∃ n : Nat, size = 4 * n ∧ 4 * n ≤ len ∧ 4 * n ≤ maxInputLength p := by
  unfold encCheck at h
  split_ifs at h with hneg hlen h4 hmax
  · cases h
  · cases h
  · cases h
  · cases h
  · exact ⟨size.toNat / 4, by omega, by omega, by omega⟩

/-- A size that the check of DEC passes is that of whole chunks within the buffer (R166). -/
theorem whole_chunks_of_decCheck_passed (hl : len < 2 ^ 31) (h : (decCheck size len).fail = false) :
    ∃ n : Nat, size = 5 * n ∧ 5 * n ≤ len := by
  unfold decCheck at h
  split_ifs at h with hneg hlen h5
  · cases h
  · cases h
  · cases h
  · rw [rem5_size_ne_zero (not_lt.1 hneg) (not_lt.1 hlen) hl] at h5
    exact ⟨size.toNat / 5, by omega, by omega⟩

/-- `encode` of `n` chunks is its chunks `0` to `n - 1`, for the check passes and answers `n` (R142, R146). -/
theorem encodeCall_chunks (buf : List Byte) (hl : len < 2 ^ 31) (hlen : 4 * n ≤ len) (hmax : 4 * n ≤ maxInputLength p) :
    encodeCall p buf (4 * n) len = encodeFrom buf 0 n := by
  have hcheck : encCheck p (4 * n) len = .passes (BitVec.ofNat 32 ((4 * n : Int).toNat >>> 2)) :=
    encCheck_passes (by omega) (by omega) (by omega) (by omega)
  have htotal : (BitVec.ofNat 32 ((4 * n : Int).toNat >>> 2)).toNat = n := by
    have hquot := quarter_toNat (size := 4 * n) (len := len) (by omega) (by omega) hl
    omega
  rw [encodeCall, hcheck, Check.passes, if_neg Bool.false_ne_true]
  exact congrArg (encodeFrom buf 0) htotal

/-- `decode` of `n` chunks is its chunks `0` to `n - 1`, for the check passes and answers `n` (R167, R169). -/
theorem decodeCall_chunks (buf : List Nat) (hl : len < 2 ^ 31) (hlen : 5 * n ≤ len) :
    decodeCall buf (5 * n) len = decodeFrom buf 0 n := by
  have hcheck : decCheck (5 * n) len = .passes (divBy5 (BitVec.ofNat 32 (5 * n : Int).toNat)) :=
    decCheck_passes (by omega) (by omega) hl (by omega)
  have htotal : (divBy5 (BitVec.ofNat 32 (5 * n : Int).toNat)).toNat = n := by
    have hquot := fifth_toNat (size := 5 * n) (len := len) (by omega) (by omega) hl
    omega
  rw [decodeCall, hcheck, Check.passes, if_neg Bool.false_ne_true]
  exact congrArg (decodeFrom buf 0) htotal

/-- When `encode` returns, and what: the size is that of whole chunks in range, and the output is theirs. -/
theorem encodeCall_returns_iff {buf : List Byte} (hl : len < 2 ^ 31) : encodeCall p buf size len = .returns out ↔
    ∃ n : Nat, size = 4 * n ∧ 4 * n ≤ len ∧ 4 * n ≤ maxInputLength p ∧ encodeFrom buf 0 n = .returns out := by
  constructor
  · intro h
    have hpassed : (encCheck p size len).fail = false := by
      by_contra hf
      rw [Bool.not_eq_false] at hf
      rw [encodeCall, if_pos hf] at h
      cases h
    obtain ⟨n, rfl, hlen, hmax⟩ := whole_chunks_of_encCheck_passed hpassed
    rw [encodeCall_chunks buf hl hlen hmax] at h
    exact ⟨n, rfl, hlen, hmax, h⟩
  · rintro ⟨n, rfl, hlen, hmax, h⟩
    rw [encodeCall_chunks buf hl hlen hmax, h]

/-- When `decode` returns, and what: the size is that of whole chunks in range, and the output is theirs. -/
theorem decodeCall_returns_iff {buf : List Nat} (hl : len < 2 ^ 31) : decodeCall buf size len = .returns out ↔
    ∃ n : Nat, size = 5 * n ∧ 5 * n ≤ len ∧ decodeFrom buf 0 n = .returns out := by
  constructor
  · intro h
    have hpassed : (decCheck size len).fail = false := by
      by_contra hf
      rw [Bool.not_eq_false] at hf
      rw [decodeCall, if_pos hf] at h
      cases h
    obtain ⟨n, rfl, hlen⟩ := whole_chunks_of_decCheck_passed hl hpassed
    rw [decodeCall_chunks buf hl hlen] at h
    exact ⟨n, rfl, hlen, h⟩
  · rintro ⟨n, rfl, hlen, h⟩
    rw [decodeCall_chunks buf hl hlen, h]

end

/-- `MAX_SEQ_LEN` is a 31-bit number (00_scope.md R5). -/
theorem maxSeqLen_lt {p : Params} (h : p.wf = true) : p.maxSeqLen < 2 ^ 31 := by
  simp only [Params.wf, Bool.and_eq_true, decide_eq_true_eq] at h
  exact h.1.2

/-! ### The lengths and the boundary sizes (R203, R204) -/

/-- Settles O57: a call that returns has read `n` whole chunks, and each adds its units to the output. -/
theorem outputLengthFollowsTheSize : Obligations.OutputLengthFollowsTheSize := by
  unfold Obligations.OutputLengthFollowsTheSize
  intro p size len out hl
  refine ⟨fun buf h => ?_, fun buf h => ?_⟩
  · obtain ⟨n, rfl, -, -, hchunks⟩ := (encodeCall_returns_iff hl).1 h
    obtain ⟨hout, -⟩ := encodeFrom_returns buf n 0 out hchunks
    omega
  · obtain ⟨n, rfl, -, hchunks⟩ := (decodeCall_returns_iff hl).1 h
    obtain ⟨hout, -⟩ := decodeFrom_returns buf n 0 out hchunks
    omega

/-- Settles O58: the two checks test the sign, then `len`, then the multiple, and 0 passes both as no chunk at all. -/
theorem onlyWholeChunksSucceed : Obligations.OnlyWholeChunksSucceed := by
  unfold Obligations.OnlyWholeChunksSucceed
  intro p bytes text size len hl
  refine ⟨fun h4 => encodeCall_of_fails bytes ?_, fun h5 => decodeCall_of_fails text ?_,
    encodeCall_chunks bytes (n := 0) hl (Nat.zero_le _) (Nat.zero_le _), decodeCall_chunks text (n := 0) hl (Nat.zero_le _), rfl⟩
  · split_ifs with hneg hlen
    · exact encCheck_negative hneg
    · exact encCheck_above_len (not_lt.1 hneg) hlen
    · exact encCheck_no_multiple (not_lt.1 hneg) (not_lt.1 hlen) h4
  · split_ifs with hneg hlen
    · exact decCheck_negative hneg
    · exact decCheck_above_len (not_lt.1 hneg) hlen
    · exact decCheck_no_multiple (not_lt.1 hneg) (not_lt.1 hlen) hl h5

/-! ### Whole chunks one after the other (R209) -/

/-- The chunks of a buffer and then those of another, encoded. -/
theorem encodeFrom_append_returns {a b o o' : List Byte} {j n : Nat} (hj : a.length = 4 * j) (ha : encodeFrom a 0 j = .returns o)
    (hb : encodeFrom b 0 n = .returns o') : encodeFrom (a ++ b) 0 (j + n) = .returns (o ++ o') := by
  have hbehind : encodeFrom (a ++ b) (0 + j) n = .returns o' := by
    rw [Nat.zero_add, ← hb]
    exact encodeFrom_shift a b j 0 n hj
  rw [encodeFrom_append, encodeFrom_prefix a b 0 j (by omega), ha, hbehind]

/-- The chunks of a text and then those of another, decoded. -/
theorem decodeFrom_append_returns {a b : List Nat} {o o' : List Byte} {j n : Nat} (hj : a.length = 5 * j)
    (ha : decodeFrom a 0 j = .returns o) (hb : decodeFrom b 0 n = .returns o') :
    decodeFrom (a ++ b) 0 (j + n) = .returns (o ++ o') := by
  have hbehind : decodeFrom (a ++ b) (0 + j) n = .returns o' := by
    have hshift := decodeFrom_shift a b j 0 n hj
    rw [hb] at hshift
    rw [Nat.zero_add]
    exact hshift
  rw [decodeFrom_append, decodeFrom_prefix a b 0 j (by omega), ha, hbehind]

/-- Settles O59: both calls have read whole chunks, and together these are those of the whole. -/
theorem callsDistributeOverWholeChunks : Obligations.CallsDistributeOverWholeChunks := by
  unfold Obligations.CallsDistributeOverWholeChunks
  refine ⟨fun p b1 b2 o1 o2 hp hlen h1 h2 => ?_, fun t1 t2 o1 o2 hlen h1 h2 => ?_⟩
  · have hseq := maxSeqLen_lt hp
    obtain ⟨-, hfit, -⟩ := maxInputLength_largest p
    obtain ⟨j, hj, -, -, hchunks1⟩ := (encodeCall_returns_iff (by omega)).1 h1
    obtain ⟨n, hn, -, -, hchunks2⟩ := (encodeCall_returns_iff (by omega)).1 h2
    rw [List.length_append, encodeCall_returns_iff (by omega)]
    exact ⟨j + n, by omega, by omega, by omega, encodeFrom_append_returns (by omega) hchunks1 hchunks2⟩
  · obtain ⟨j, hj, -, hchunks1⟩ := (decodeCall_returns_iff (by omega)).1 h1
    obtain ⟨n, hn, -, hchunks2⟩ := (decodeCall_returns_iff (by omega)).1 h2
    rw [List.length_append, decodeCall_returns_iff (by omega)]
    exact ⟨j + n, by omega, by omega, decodeFrom_append_returns (by omega) hchunks1 hchunks2⟩

/-! ### The validity checker and the decoder (R202, R186) -/

/-- What `isValid` answers where `decode` has a given outcome: the verdict is true for an output, and a failure keeps its cause and
position (43_isvalid.md R184, R186). -/
def CallResult.verdict : CallResult → Option Verdict
  | .returns _ => some ⟨true, .none, 0⟩
  | .raises c pos => some ⟨false, c, pos⟩
  | .bufferTooShort => none

theorem CallResult.verdict_valid_iff (r : CallResult) : r.verdict = some ⟨true, .none, 0⟩ ↔ ∃ out, r = .returns out := by
  cases r <;> simp [verdict]

theorem CallResult.verdict_invalid_iff (r : CallResult) (c : Cause) (pos : Nat) :
    r.verdict = some ⟨false, c, pos⟩ ↔ r = .raises c pos := by
  cases r <;> simp [verdict]

/-- Chunk by chunk, the checker answers the verdict on what the decoder answers. -/
theorem isValidFrom_eq_verdict (t : List Nat) (n k : Nat) : isValidFrom t k n = (decodeFrom t k n).verdict := by
  induction n generalizing k with
  | zero => rfl
  | succ n ih =>
    rw [isValidFrom, decodeFrom_succ]
    by_cases hfit : 5 * k + 5 ≤ t.length
    · obtain ⟨u0, u1, u2, u3, u4, hread, -⟩ := bufferRead_five t (5 * k) hfit
      rw [hread]
      cases hc : decChunk ⟨u0, u1, u2, u3, u4⟩ with
      | fail c => simp only [hc, CallResult.verdict]
      | ok v =>
        simp only [hc, ih]
        cases decodeFrom t (k + 1) n <;> rfl
    · rw [bufferRead_none t (5 * k) 5 hfit]
      rfl

/-- For a size that is the whole length, the check of DEC comes down to that of VAL. -/
theorem decCheck_whole (len : Nat) : decCheck len len = valCheck len := by
  rw [decCheck, if_neg (by omega), if_neg (by omega), Int.toNat_natCast]
  rfl

theorem isValidCall_eq_verdict (t : List Nat) (len : Nat) : isValidCall t len = (decodeCall t len len).verdict := by
  rw [isValidCall, decodeCall, decCheck_whole, isValidFrom_eq_verdict]
  split_ifs
  · rfl
  · rfl

/-- Settles O56: the answer of `isValid` is the verdict on the outcome of `decode`. -/
theorem validityCheckerAgreesWithDecoder : Obligations.ValidityCheckerAgreesWithDecoder := by
  unfold Obligations.ValidityCheckerAgreesWithDecoder
  intro t _
  rw [isValidCall_eq_verdict]
  exact ⟨(CallResult.verdict_valid_iff _).symm, fun c pos => (CallResult.verdict_invalid_iff _ c pos).symm⟩

/-! ### The round trips (R200, R201) -/

/-- A buffer of bytes that holds a chunk begins with the four bytes of some chunk value. -/
theorem exists_bytesBe_append {b : List Byte} {n : Nat} (h : b.length = 4 * (n + 1)) :
    ∃ v r, b = bytesBe v ++ r ∧ r.length = 4 * n := by
  obtain ⟨b0, b1, b2, b3, -, hb⟩ := bufferRead_four b 0 (by omega)
  rw [List.drop_zero] at hb
  exact ⟨be32 b0 b1 b2 b3, b.drop 4, by rw [bytesBe_be32]; exact hb, by rw [List.length_drop]; omega⟩

/-- A text that holds a chunk begins with the five units of one. -/
theorem exists_units_append {t : List Nat} {n : Nat} (h : t.length = 5 * (n + 1)) :
    ∃ (u : Units5) (r : List Nat), t = u.toList ++ r ∧ r.length = 5 * n := by
  obtain ⟨u0, u1, u2, u3, u4, -, ht⟩ := bufferRead_five t 0 (by omega)
  rw [List.drop_zero] at ht
  exact ⟨⟨u0, u1, u2, u3, u4⟩, t.drop 5, ht, by rw [List.length_drop]; omega⟩

/-- `encode` of one chunk and a rest is the characters of the chunk and what it gives for the rest. -/
theorem encodeFrom_chunk_append (v : Chunk) (b o : List Byte) (n : Nat) :
    encodeFrom (bytesBe v ++ b) 0 (n + 1) = .returns o ↔
      ∃ o', encodeFrom b 0 n = .returns o' ∧ o = outUnits .enc (encChunk v) ++ o' := by
  have hread : bufferRead (bytesBe v ++ b) (4 * 0) 4 = some (bytesBe v) := by
    simp [bufferRead, bytesBe]
  have hrest : encodeFrom (bytesBe v ++ b) (0 + 1) n = encodeFrom b 0 n := encodeFrom_shift (bytesBe v) b 1 0 n rfl
  rw [encodeFrom_succ, hread, hrest]
  simp only [bytesBe, be32_bytesBe]
  cases encodeFrom b 0 n <;> simp [eq_comm]

/-- `decode` of one chunk and a rest returns exactly when both do, the bytes of the chunk before those of the rest. -/
theorem decodeFrom_chunk_append (u : Units5) (t : List Nat) (o : List Byte) (n : Nat) :
    decodeFrom (u.toList ++ t) 0 (n + 1) = .returns o ↔
      ∃ v o', decChunk u = .ok v ∧ decodeFrom t 0 n = .returns o' ∧ o = bytesBe v ++ o' := by
  have hread : bufferRead (u.toList ++ t) (5 * 0) 5 = some [u.u0, u.u1, u.u2, u.u3, u.u4] := by
    simp [bufferRead, Units5.toList]
  have hrest : decodeFrom (u.toList ++ t) (0 + 1) n = _ := decodeFrom_shift u.toList t 1 0 n rfl
  rw [decodeFrom_succ, hread, hrest]
  cases hc : decChunk u with
  | fail c => simp [hc]
  | ok v => cases decodeFrom t 0 n <;> simp [hc, eq_comm]

/-- Bytes and text of `n` chunks each: the text decodes to the bytes exactly when the bytes encode to the text. -/
theorem decodeFrom_iff_encodeFrom {n : Nat} {t : List Nat} {b : List Byte} (ht : t.length = 5 * n) (hb : b.length = 4 * n) :
    decodeFrom t 0 n = .returns b ↔ ∃ t' : List Byte, encodeFrom b 0 n = .returns t' ∧ t'.map BitVec.toNat = t := by
  induction n generalizing t b with
  | zero =>
    rw [List.eq_nil_of_length_eq_zero ht, List.eq_nil_of_length_eq_zero hb]
    exact ⟨fun _ => ⟨[], rfl, rfl⟩, fun _ => rfl⟩
  | succ n ih =>
    obtain ⟨u, t, rfl, hrt⟩ := exists_units_append ht
    obtain ⟨v, b, rfl, hrb⟩ := exists_bytesBe_append hb
    rw [decodeFrom_chunk_append]
    simp only [encodeFrom_chunk_append]
    constructor
    · rintro ⟨v', b', hok, hrest, hsplit⟩
      obtain ⟨hv, rfl⟩ := List.append_inj hsplit rfl
      obtain rfl := bytesBe_inj.1 hv
      obtain ⟨t', henc, rfl⟩ := (ih hrt hrb).1 hrest
      refine ⟨_, ⟨t', henc, rfl⟩, ?_⟩
      rw [List.map_append, outUnits_encChunk_toNat, (decChunk_eq_ok_iff u v).1 hok]
    · rintro ⟨_, ⟨t', henc, rfl⟩, hmap⟩
      rw [List.map_append, outUnits_encChunk_toNat] at hmap
      obtain ⟨hu, ht'⟩ := List.append_inj hmap rfl
      exact ⟨v, b, (decChunk_eq_ok_iff u v).2 (Units5.toList_inj.1 hu.symm), (ih hrt hrb).2 ⟨t', henc, ht'⟩, rfl⟩

/-- The chunks that lie within the buffer are encoded without fail (R146: no chunk of `encode` raises). -/
theorem exists_encodeFrom_returns {b : List Byte} {n : Nat} (h : 4 * n ≤ b.length) : ∃ t, encodeFrom b 0 n = .returns t := by
  obtain ⟨-, outs, -, henc⟩ := foldBeats_enc (fun b0 b1 b2 b3 => encInChunk_encInBeat b0 b1 b2 b3 0) b 0 n 0 0
    (by rw [Nat.zero_add]; exact h) ⟨false, .none, 0, []⟩
  exact ⟨_, henc⟩

/-- Settles O54: the text of the chunks fits the limits of DEC, as `MAX_INPUT_LENGTH` keeps it within `MAX_SEQ_LEN`, and it decodes
to the bytes by `decodeFrom_iff_encodeFrom`. -/
theorem decodingUndoesEncoding : Obligations.DecodingUndoesEncoding := by
  unfold Obligations.DecodingUndoesEncoding
  intro p b hp h4 hmax
  have hseq := maxSeqLen_lt hp
  obtain ⟨-, hfit, -⟩ := maxInputLength_largest p
  obtain ⟨n, hb⟩ : ∃ n, b.length = 4 * n := Nat.dvd_of_mod_eq_zero h4
  obtain ⟨t, henc⟩ := exists_encodeFrom_returns hb.ge
  obtain ⟨ht, -⟩ := encodeFrom_returns b n 0 t henc
  have hdec : decodeFrom (t.map BitVec.toNat) 0 n = .returns b :=
    (decodeFrom_iff_encodeFrom (by rw [List.length_map, ht]) hb).2 ⟨t, henc, rfl⟩
  exact ⟨t, (encodeCall_returns_iff (by omega)).2 ⟨n, by omega, by omega, by omega, henc⟩,
    (decodeCall_returns_iff (by omega)).2 ⟨n, by omega, by omega, hdec⟩⟩

/-- Settles O55: `decode` returns where `isValid` accepts, and the bytes of the chunks encode to the text by
`decodeFrom_iff_encodeFrom`. -/
theorem encodingUndoesDecoding : Obligations.EncodingUndoesDecoding := by
  unfold Obligations.EncodingUndoesDecoding
  intro p t hp hl hmax hvalid
  rw [isValidCall_eq_verdict] at hvalid
  obtain ⟨b, hdecode⟩ := (CallResult.verdict_valid_iff _).1 hvalid
  obtain ⟨n, ht, -, hdec⟩ := (decodeCall_returns_iff hl).1 hdecode
  obtain ⟨hb, -⟩ := decodeFrom_returns t n 0 b hdec
  obtain ⟨t', henc, hmap⟩ := (decodeFrom_iff_encodeFrom (by omega) hb).1 hdec
  exact ⟨b, t', hdecode, (encodeCall_returns_iff (by omega)).2 ⟨n, by omega, by omega, by omega, henc⟩, hmap⟩

end Sys2Proof.Machine
end

section
/-! Several instances: an interleaving of their edges is the instances' own runs side by side, so a call on one of them ends as it
does alone (60_exceptions.md R235). -/

namespace Sys2Proof.Machine

/-- Each instance's own edges among `ks`, as many as its number occurs there, take it alone from its state in `ms` to its state in
`ms'` (R235; log entry 12). -/
def OwnRuns (ms : List State) (ks : List Nat) (ms' : List State) : Prop :=
  ms'.length = ms.length ∧
  ∀ (i : Nat) (s : State), ms[i]? = some s → ∃ t : State, ms'[i]? = some t ∧ Sys2Proof.core.run (ks.count i) s = .next t

section
variable {ms m ms' : List State} {k i : Nat} {ks : List Nat} {s t : State}

theorem ownRuns_nil : OwnRuns ms [] ms' ↔ ms' = ms := by
  constructor
  · rintro ⟨hlen, hruns⟩
    refine List.ext_getElem hlen fun i hi' hi => ?_
    obtain ⟨t, ht, hrun⟩ := hruns i _ (List.getElem?_eq_getElem hi)
    cases hrun
    exact (List.getElem_eq_iff hi').2 ht
  · rintro rfl
    exact ⟨rfl, fun i s hs => ⟨s, hs, rfl⟩⟩

/-- An edge whose number names no instance is nobody's own. -/
theorem ownRuns_cons_of_none (hk : ms[k]? = none) : OwnRuns ms (k :: ks) ms' ↔ OwnRuns ms ks ms' := by
  refine and_congr_right fun _ => forall₃_congr fun i s hs => ?_
  have hne : k ≠ i := by
    rintro rfl
    cases hk.symm.trans hs
  rw [List.count_cons_of_ne hne]

/-- An edge of instance `k` is the first of its own edges, and none of another instance's. -/
theorem ownRuns_cons_of_step (hk : ms[k]? = some s) (hst : step s = .next t) :
    OwnRuns ms (k :: ks) ms' ↔ OwnRuns (ms.set k t) ks ms' := by
  obtain ⟨hlt, -⟩ := List.getElem?_eq_some_iff.1 hk
  refine and_congr (by rw [List.length_set]) (forall_congr' fun i => ?_)
  by_cases hki : k = i
  · subst hki
    simp only [hk, List.getElem?_set_self hlt, List.count_cons_self, Option.some.injEq, forall_eq', run_succ hst]
  · rw [List.getElem?_set_ne hki, List.count_cons_of_ne hki]

/-- Where every instance's own edges take it on, the first edge of the interleaving goes on. -/
theorem OwnRuns.stepInstance_next (h : OwnRuns ms (k :: ks) ms') : ∃ m, stepInstance ms k = .next m := by
  obtain ⟨-, hruns⟩ := h
  cases hk : ms[k]? with
  | none => exact ⟨ms, stepInstance_none hk⟩
  | some s =>
    obtain ⟨u, -, hrun⟩ := hruns k s hk
    rw [List.count_cons_self] at hrun
    obtain ⟨t, hst, -⟩ := run_succ_next hrun
    exact ⟨_, stepInstance_of_step hk hst⟩

theorem ownRuns_cons (h : stepInstance ms k = .next m) : OwnRuns ms (k :: ks) ms' ↔ OwnRuns m ks ms' := by
  obtain ⟨hk, rfl⟩ | ⟨s, t, hk, hst, rfl⟩ := stepInstance_cases h
  · exact ownRuns_cons_of_none hk
  · exact ownRuns_cons_of_step hk hst

end

/-- An interleaving answers exactly the states to which the instances' own runs take them (R235). -/
theorem runInstances_eq_next_iff (ks : List Nat) (ms ms' : List State) :
    runInstances ms ks = .next ms' ↔ OwnRuns ms ks ms' := by
  induction ks generalizing ms with
  | nil =>
    rw [ownRuns_nil, runInstances, Host.Outcome.next.injEq]
    exact eq_comm
  | cons k ks ih =>
    constructor
    · intro h
      obtain ⟨m, hm, hrest⟩ := runInstances_cons_next h
      exact (ownRuns_cons hm).2 ((ih m).1 hrest)
    · intro h
      obtain ⟨m, hm⟩ := h.stepInstance_next
      rw [runInstances_cons hm]
      exact (ih m).2 ((ownRuns_cons hm).1 h)

/-- A receipt that an instance's own edges add alone is added among others too, and stays: the others keep the invariant, so the
interleaving goes on, and further edges take no receipt away. -/
theorem deliversAmongOthers_of_run {s t : State} {r : Receipt} {n : Nat} (hrun : Sys2Proof.core.run n s = .next t)
    (hr : t.receipts = s.receipts ++ [r]) : s.deliversAmongOthers r := by
  refine ⟨n, fun ms i ks hi hinv hn => ?_⟩
  obtain ⟨ms', hms', -⟩ := runInstances_inv theInvariantIsKept ks hinv
  obtain ⟨-, hown⟩ := (runInstances_eq_next_iff ks ms ms').1 hms'
  obtain ⟨u, hu, hrun'⟩ := hown i s hi
  exact ⟨ms', u, hms', hu, hr ▸ run_receipts_prefix hn hrun hrun'⟩

/-- Settles O38: an interleaving is the instances' own runs (`runInstances_eq_next_iff`), so the receipt with which O39 to O42 end a
call of each operation alone is delivered among others too (`deliversAmongOthers_of_run`). -/
theorem instancesAreIndependent : Obligations.InstancesAreIndependent := by
  unfold Obligations.InstancesAreIndependent
  refine ⟨fun ms ms' ks => runInstances_eq_next_iff ks ms ms', fun s size cs rest hinv hidle hnr => ⟨?enc, ?dec, ?val, ?rsv⟩⟩
  case enc =>
    intro buf hl hcmds hins
    obtain ⟨n, t, r, hrun, -, hreceipt, hadd, -⟩ := encCallEndsWithItsEncoding s size buf cs rest hinv hidle hnr hl hcmds hins
    exact ⟨r, hreceipt, deliversAmongOthers_of_run hrun hadd⟩
  case dec =>
    intro buf hl hu hcmds hins
    obtain ⟨n, t, r, hrun, -, hreceipt, hadd, -⟩ := decCallEndsWithItsDecoding s size buf cs rest hinv hidle hnr hl hu hcmds hins
    exact ⟨r, hreceipt, deliversAmongOthers_of_run hrun hadd⟩
  case val =>
    intro buf hl hu hcmds hins
    obtain ⟨n, t, v, hrun, -, hverdict, hadd, -⟩ := valCallEndsWithItsVerdict s size buf cs rest hinv hidle hnr hl hu hcmds hins
    exact ⟨v, hverdict, deliversAmongOthers_of_run hrun hadd⟩
  case rsv =>
    intro len hcmds
    obtain ⟨n, t, hrun, -, hadd, -⟩ := rsvCallEndsWithBadOp s size len cs hinv hidle hnr hcmds
    exact deliversAmongOthers_of_run hrun hadd

end Sys2Proof.Machine
end

section
/-! An edge with `rst`, and an edge at which the block has nothing to do (70_reset_and_hazards.md R250 to R253, R257;
60_exceptions.md R236). -/

namespace Sys2Proof.Machine

/-! ### Reset (R250, R251, R253) -/

theorem step_reset {s : State} (hr : s.edge.rst = true) : step s = .next (resetEvent s.edge (arrive s)) := by
  simp [step, edgeEvent, hr]

/-- The state after an edge with `rst`, whole: the reset state of the block, and the offers that were not withdrawn. -/
theorem resetEvent_eq (e : Edge) (s : State) :
    resetEvent e s = { State.reset with
      par := s.par, receipts := s.receipts, edges := s.edges
      cmds := if e.withdraw then [] else s.cmds
      ins := if e.withdraw then [] else s.ins } := by
  unfold resetEvent
  split
  · rfl
  · rfl

/-- Settles O23: the registers are those of `State.reset`, and `withdraw` decides what is still on offer. -/
theorem resetAbortsTheCall : Obligations.ResetAbortsTheCall := by
  unfold Obligations.ResetAbortsTheCall
  intro s hr
  refine ⟨_, step_reset hr, ?_⟩
  rw [resetEvent_eq]
  refine ⟨rfl, rfl, rfl, rfl, rfl, rfl, rfl, rfl, rfl, rfl, rfl, rfl, rfl, fun hkept => ?_, fun hwithdrawn => ?_⟩
  · rw [hkept]
    exact ⟨rfl, rfl⟩
  · rw [hwithdrawn]
    exact ⟨rfl, rfl⟩

/-! ### Waiting (R236, R257) -/

section
variable {e : Edge} {s : State}

theorem idleEvent_nil (hc : s.cmds = []) : idleEvent s = .next s := by
  simp only [idleEvent, hc]

theorem inTransfers_of_no_beat (hins : s.ins = []) : inTransfers e s = false := by
  rw [inTransfers, hins, List.isEmpty_nil, Bool.not_true, Bool.and_false]

/-- With `Q` empty the output side neither transfers a beat nor shows one (40_call_protocol.md R116). -/
theorem outEvent_of_empty_queue (t : State) (hq : s.q = []) : outEvent e s t = t := by
  obtain ⟨hout, -⟩ | ⟨-, hv, -⟩ | ⟨-, -, heq⟩ := outEvent_cases e s t
  · exact absurd hq ((outTransfers_iff e s).1 hout).1
  · exact absurd hq ((outValid_iff e s).1 hv).1
  · exact heq

theorem finishEnabled_of_beats_left (hidx : s.idxIn ≠ s.total) : finishEnabled s = false :=
  Bool.eq_false_iff.2 fun hf => hidx ((finishEnabled_iff s).1 hf).2.1

/-- A call that is starved of a beat, with nothing left to deliver, waits. -/
theorem runEvent_starved (hidx : s.idxIn ≠ s.total) (hins : s.ins = []) (hq : s.q = []) : runEvent e s = .next s := by
  rw [runEvent_no_input (finishEnabled_of_beats_left hidx) (inTransfers_of_no_beat hins), outEvent_of_empty_queue s hq]

end

/-- Settles O24: the sampled state offers no command, or no beat, and neither event has anything else to do. -/
theorem blockWaitsWithoutAnOffer : Obligations.BlockWaitsWithoutAnOffer := by
  unfold Obligations.BlockWaitsWithoutAnOffer
  intro s hr
  refine ⟨fun hp hc hnew => ?_, fun hp hq hidx hins hnew => ?_⟩
  · have hc' : (arrive s).cmds = [] := by rw [arrive_cmds, hc, hnew]; rfl
    rw [step_idle hr hp, idleEvent_nil hc']
  · have hins' : (arrive s).ins = [] := by rw [arrive_ins, hins, hnew]; rfl
    rw [step_run hr hp, runEvent_starved (s := arrive s) hidx hins' hq]

end Sys2Proof.Machine
end
